-- ==== Sys2Proof/Word.lean ====
section
/-! DEFINITION. The word types of CORE: everything is unsigned (spec/00_scope.md R11). -/

namespace Sys2Proof

/-- An 8-bit value: a `V` register, a timer, a byte of memory (10_state.md R20, R33; 20_memory.md R50). -/
abbrev Byte := BitVec 8

/-- A 16-bit value: an instruction word, `pc`, `I`, a return address (10_state.md R24, R28, R29). -/
abbrev Word := BitVec 16

/-- A 12-bit immediate `NNN` (30_encoding.md R72, R74). -/
abbrev Imm12 := BitVec 12

/-- A register index 0 to 15: every value a 4-bit field can hold names a register (10_state.md R20, R42). -/
abbrev Reg := Fin 16

/-- The register `VF`, the only flag (10_state.md R21, R39). -/
abbrev vF : Reg := 15

/-- A key state: bit `k` is `KEYS[k]` (10_state.md R36; 44_timers_keys.md `Kv`). -/
abbrev KeyState := BitVec 16

end Sys2Proof
end

