-- ==== Sys2Proof/Syntax.lean ====
section
/-! DEFINITION. The instructions: one constructor per row of spec/opcode_table.json (30_encoding.md R85). -/

namespace Sys2Proof

/-- One instruction of base CHIP-8, with the fields of 30_encoding.md R72 as operands. A register operand is an index 0
to 15 and an immediate has its field's width, so no operand out of its range can be written (10_state.md R42). -/
inductive Instr where
  /-- `00E0` CLS (R170) -/
  | cls
  /-- `00EE` RET (R103) -/
  | ret
  /-- `1NNN` JP addr (R104) -/
  | jp (nnn : Imm12)
  /-- `2NNN` CALL addr (R105) -/
  | call (nnn : Imm12)
  /-- `3XKK` SE Vx, byte (R107) -/
  | seByte (x : Reg) (kk : Byte)
  /-- `4XKK` SNE Vx, byte (R108) -/
  | sneByte (x : Reg) (kk : Byte)
  /-- `5XY0` SE Vx, Vy (R109) -/
  | seReg (x y : Reg)
  /-- `6XKK` LD Vx, byte (R122) -/
  | ldByte (x : Reg) (kk : Byte)
  /-- `7XKK` ADD Vx, byte (R123) -/
  | addByte (x : Reg) (kk : Byte)
  /-- `8XY0` LD Vx, Vy (R124) -/
  | ldReg (x y : Reg)
  /-- `8XY1` OR Vx, Vy (R125) -/
  | orReg (x y : Reg)
  /-- `8XY2` AND Vx, Vy (R126) -/
  | andReg (x y : Reg)
  /-- `8XY3` XOR Vx, Vy (R127) -/
  | xorReg (x y : Reg)
  /-- `8XY4` ADD Vx, Vy (R128) -/
  | addReg (x y : Reg)
  /-- `8XY5` SUB Vx, Vy (R129) -/
  | subReg (x y : Reg)
  /-- `8XY6` SHR Vx, Vy (R130) -/
  | shrReg (x y : Reg)
  /-- `8XY7` SUBN Vx, Vy (R131) -/
  | subnReg (x y : Reg)
  /-- `8XYE` SHL Vx, Vy (R132) -/
  | shlReg (x y : Reg)
  /-- `9XY0` SNE Vx, Vy (R110) -/
  | sneReg (x y : Reg)
  /-- `ANNN` LD I, addr (R150) -/
  | ldI (nnn : Imm12)
  /-- `BNNN` JP V0, addr (R111) -/
  | jpV0 (nnn : Imm12)
  /-- `CXKK` RND Vx, byte (R133) -/
  | rnd (x : Reg) (kk : Byte)
  /-- `DXYN` DRW Vx, Vy, nibble (R172); `n` is a row count 0 to 15 (R74) -/
  | drw (x y : Reg) (n : Fin 16)
  /-- `EX9E` SKP Vx (R181) -/
  | skp (x : Reg)
  /-- `EXA1` SKNP Vx (R182) -/
  | sknp (x : Reg)
  /-- `FX07` LD Vx, DT (R183) -/
  | ldVxDT (x : Reg)
  /-- `FX0A` LD Vx, K (R185) -/
  | ldVxK (x : Reg)
  /-- `FX15` LD DT, Vx (R188) -/
  | ldDTVx (x : Reg)
  /-- `FX18` LD ST, Vx (R189) -/
  | ldSTVx (x : Reg)
  /-- `FX1E` ADD I, Vx (R151) -/
  | addIVx (x : Reg)
  /-- `FX29` LD F, Vx (R152) -/
  | ldFVx (x : Reg)
  /-- `FX33` LD B, Vx (R154) -/
  | ldBVx (x : Reg)
  /-- `FX55` LD [I], Vx (R156) -/
  | storeRegs (x : Reg)
  /-- `FX65` LD Vx, [I] (R158) -/
  | loadRegs (x : Reg)
  deriving DecidableEq, Repr

end Sys2Proof
end

