-- ==== Sys2Proof/WellFormed.lean ====
section
/-! DEFINITION. What is well formed: an instruction word that matches a row of the opcode table (30_encoding.md R82), and
a program image that fits (60_exceptions.md R205). An operand of `Instr` out of its range cannot be written at all: its type is its
field's range (10_state.md R42). -/

namespace Sys2Proof

namespace WellFormed

/-- One row of spec/opcode_table.json: a word belongs to it when its bits under `mask` are those of `pattern`. -/
structure Row where
  mnemonic : String
  mask : Word
  pattern : Word
  deriving DecidableEq, Repr

/-- The rows of families 0 to 5. -/
def opcodeRowsControl : List Row :=
  [⟨"CLS", 0xFFFF, 0x00E0⟩,
   ⟨"RET", 0xFFFF, 0x00EE⟩,
   ⟨"JP_addr", 0xF000, 0x1000⟩,
   ⟨"CALL_addr", 0xF000, 0x2000⟩,
   ⟨"SE_Vx__byte", 0xF000, 0x3000⟩,
   ⟨"SNE_Vx__byte", 0xF000, 0x4000⟩,
   ⟨"SE_Vx__Vy", 0xF00F, 0x5000⟩]

/-- The rows of families 6 to 8. -/
def opcodeRowsAlu : List Row :=
  [⟨"LD_Vx__byte", 0xF000, 0x6000⟩,
   ⟨"ADD_Vx__byte", 0xF000, 0x7000⟩,
   ⟨"LD_Vx__Vy", 0xF00F, 0x8000⟩,
   ⟨"OR_Vx__Vy", 0xF00F, 0x8001⟩,
   ⟨"AND_Vx__Vy", 0xF00F, 0x8002⟩,
   ⟨"XOR_Vx__Vy", 0xF00F, 0x8003⟩,
   ⟨"ADD_Vx__Vy", 0xF00F, 0x8004⟩,
   ⟨"SUB_Vx__Vy", 0xF00F, 0x8005⟩,
   ⟨"SHR_Vx__Vy", 0xF00F, 0x8006⟩,
   ⟨"SUBN_Vx__Vy", 0xF00F, 0x8007⟩,
   ⟨"SHL_Vx__Vy", 0xF00F, 0x800E⟩]

/-- The rows of families 9 to E. -/
def opcodeRowsMid : List Row :=
  [⟨"SNE_Vx__Vy", 0xF00F, 0x9000⟩,
   ⟨"LD_I__addr", 0xF000, 0xA000⟩,
   ⟨"JP_V0__addr", 0xF000, 0xB000⟩,
   ⟨"RND_Vx__byte", 0xF000, 0xC000⟩,
   ⟨"DRW_Vx__Vy__nibble", 0xF000, 0xD000⟩,
   ⟨"SKP_Vx", 0xF0FF, 0xE09E⟩,
   ⟨"SKNP_Vx", 0xF0FF, 0xE0A1⟩]

/-- The rows of family F. -/
def opcodeRowsF : List Row :=
  [⟨"LD_Vx__DT", 0xF0FF, 0xF007⟩,
   ⟨"LD_Vx__K", 0xF0FF, 0xF00A⟩,
   ⟨"LD_DT__Vx", 0xF0FF, 0xF015⟩,
   ⟨"LD_ST__Vx", 0xF0FF, 0xF018⟩,
   ⟨"ADD_I__Vx", 0xF0FF, 0xF01E⟩,
   ⟨"LD_F__Vx", 0xF0FF, 0xF029⟩,
   ⟨"LD_B__Vx", 0xF0FF, 0xF033⟩,
   ⟨"LD__I___Vx", 0xF0FF, 0xF055⟩,
   ⟨"LD_Vx___I", 0xF0FF, 0xF065⟩]

/-- The opcode table, 34 rows, in the table's order. -/
def opcodeRows : List Row := opcodeRowsControl ++ opcodeRowsAlu ++ opcodeRowsMid ++ opcodeRowsF

/-- The word's bits under the row's mask are the row's. -/
def Row.matchesWord (r : Row) (w : Word) : Bool := w &&& r.mask == r.pattern

/-- "a word is legal only when it matches one pattern of `opcode_table.json` exactly" (30_encoding.md R82). -/
def legalWord (w : Word) : Bool := opcodeRows.any fun r => r.matchesWord w

/-- A program image the load accepts: not empty, and `image.length + 0x200 <= 4096` (60_exceptions.md R205; 90_conflicts.md C4). -/
def legalImage (image : List Byte) : Bool := 0 < image.length && image.length ≤ 3584

end WellFormed

end Sys2Proof
end

