-- ==== Sys2Proof/Decode.lean ====
section
/-! DEFINITION. The decoder (30_encoding.md R70 to R85), total on any word and any bytes, rejecting by name, and the encoder. -/

namespace Sys2Proof

/-- Why bytes are no instruction: the rows of the table of illegal words of 30_encoding.md R82, and too few bytes (R70). -/
inductive Reject where
  /-- fewer than the two bytes of an instruction -/
  | truncated
  /-- `0NNN` other than `00E0` and `00EE`, the "machine-call" family (R83) -/
  | machineCall
  /-- `5XYN` with `N` not 0 -/
  | family5
  /-- `8XYN` with `N` in 8, 9, A, B, C, D, F -/
  | family8
  /-- `9XYN` with `N` not 0 -/
  | family9
  /-- `EXKK` with `KK` neither 9E nor A1 -/
  | familyE
  /-- `FXKK` with `KK` none of the nine sub-operations -/
  | familyF
  deriving DecidableEq, Repr

/-! The fields of an instruction word (30_encoding.md R72). -/

/-- `op` = `w[15:12]` -/
def opField (w : Word) : BitVec 4 := w.extractLsb' 12 4

/-- `X` = `w[11:8]` -/
def xField (w : Word) : Reg := (w.extractLsb' 8 4).toFin

/-- `Y` = `w[7:4]` -/
def yField (w : Word) : Reg := (w.extractLsb' 4 4).toFin

/-- `N` = `w[3:0]` -/
def nField (w : Word) : BitVec 4 := w.extractLsb' 0 4

/-- `KK` = `w[7:0]` -/
def kkField (w : Word) : Byte := w.extractLsb' 0 8

/-- `NNN` = `w[11:0]` -/
def nnnField (w : Word) : Imm12 := w.extractLsb' 0 12

/-- Family 8, selected by `N` (30_encoding.md R79, R81; the codes other than 0 and 4 are PRESUMED by the spec, log 12). -/
def decodeFamily8 (w : Word) : Except Reject Instr :=
  let x := xField w
  let y := yField w
  match (nField w).toNat with
  | 0x0 => .ok (.ldReg x y)
  | 0x1 => .ok (.orReg x y)
  | 0x2 => .ok (.andReg x y)
  | 0x3 => .ok (.xorReg x y)
  | 0x4 => .ok (.addReg x y)
  | 0x5 => .ok (.subReg x y)
  | 0x6 => .ok (.shrReg x y)
  | 0x7 => .ok (.subnReg x y)
  | 0xE => .ok (.shlReg x y)
  | _ => .error .family8

/-- Family E, selected by `KK` (30_encoding.md R79). -/
def decodeFamilyE (w : Word) : Except Reject Instr :=
  match (kkField w).toNat with
  | 0x9E => .ok (.skp (xField w))
  | 0xA1 => .ok (.sknp (xField w))
  | _ => .error .familyE

/-- Family F, selected by `KK` (30_encoding.md R79). -/
def decodeFamilyF (w : Word) : Except Reject Instr :=
  let x := xField w
  match (kkField w).toNat with
  | 0x07 => .ok (.ldVxDT x)
  | 0x0A => .ok (.ldVxK x)
  | 0x15 => .ok (.ldDTVx x)
  | 0x18 => .ok (.ldSTVx x)
  | 0x1E => .ok (.addIVx x)
  | 0x29 => .ok (.ldFVx x)
  | 0x33 => .ok (.ldBVx x)
  | 0x55 => .ok (.storeRegs x)
  | 0x65 => .ok (.loadRegs x)
  | _ => .error .familyF

/-- The switch on the high nibble (30_encoding.md R78 step 2, R79). -/
def decodeFamily (w : Word) : Except Reject Instr :=
  match (opField w).toNat with
  | 0x0 => .error .machineCall
  | 0x1 => .ok (.jp (nnnField w))
  | 0x2 => .ok (.call (nnnField w))
  | 0x3 => .ok (.seByte (xField w) (kkField w))
  | 0x4 => .ok (.sneByte (xField w) (kkField w))
  | 0x5 => if nField w = 0 then .ok (.seReg (xField w) (yField w)) else .error .family5
  | 0x6 => .ok (.ldByte (xField w) (kkField w))
  | 0x7 => .ok (.addByte (xField w) (kkField w))
  | 0x8 => decodeFamily8 w
  | 0x9 => if nField w = 0 then .ok (.sneReg (xField w) (yField w)) else .error .family9
  | 0xA => .ok (.ldI (nnnField w))
  | 0xB => .ok (.jpV0 (nnnField w))
  | 0xC => .ok (.rnd (xField w) (kkField w))
  | 0xD => .ok (.drw (xField w) (yField w) (nField w).toFin)
  | 0xE => decodeFamilyE w
  | _ => decodeFamilyF w

/-- Decode a word: the exact matches `00E0` and `00EE` take precedence over the high nibble (30_encoding.md R78). -/
def decode (w : Word) : Except Reject Instr :=
  if w = 0x00E0 then .ok .cls
  else if w = 0x00EE then .ok .ret
  else decodeFamily w

/-- The word of two bytes of memory, the byte at the lower address high (30_encoding.md R71; 20_memory.md R52). -/
def composeWord (hi lo : Byte) : Word := hi ++ lo

/-- Decode the first instruction of a list of bytes and give the rest: always two bytes (30_encoding.md R70). -/
def decodeBytes : List Byte → Except Reject (Instr × List Byte)
  | hi :: lo :: rest =>
    match decode (composeWord hi lo) with
    | .ok i => .ok (i, rest)
    | .error r => .error r
  | _ => .error .truncated

/-! The encoder, by the formats of 30_encoding.md R73. -/

/-- Format `NNN`. -/
def packNNN (op : BitVec 4) (nnn : Imm12) : Word := op ++ nnn

/-- Formats `XKK` and `X`. -/
def packXKK (op : BitVec 4) (x : Reg) (kk : Byte) : Word := op ++ BitVec.ofFin (w := 4) x ++ kk

/-- Formats `XY` and `XYN`. -/
def packXYN (op : BitVec 4) (x y : Reg) (n : BitVec 4) : Word :=
  op ++ BitVec.ofFin (w := 4) x ++ BitVec.ofFin (w := 4) y ++ n

/-- The word of an instruction, from the formats and codes of 30_encoding.md R73 and R79. -/
def encode : Instr → Word
  | .cls => 0x00E0
  | .ret => 0x00EE
  | .jp nnn => packNNN 0x1 nnn
  | .call nnn => packNNN 0x2 nnn
  | .seByte x kk => packXKK 0x3 x kk
  | .sneByte x kk => packXKK 0x4 x kk
  | .seReg x y => packXYN 0x5 x y 0x0
  | .ldByte x kk => packXKK 0x6 x kk
  | .addByte x kk => packXKK 0x7 x kk
  | .ldReg x y => packXYN 0x8 x y 0x0
  | .orReg x y => packXYN 0x8 x y 0x1
  | .andReg x y => packXYN 0x8 x y 0x2
  | .xorReg x y => packXYN 0x8 x y 0x3
  | .addReg x y => packXYN 0x8 x y 0x4
  | .subReg x y => packXYN 0x8 x y 0x5
  | .shrReg x y => packXYN 0x8 x y 0x6
  | .subnReg x y => packXYN 0x8 x y 0x7
  | .shlReg x y => packXYN 0x8 x y 0xE
  | .sneReg x y => packXYN 0x9 x y 0x0
  | .ldI nnn => packNNN 0xA nnn
  | .jpV0 nnn => packNNN 0xB nnn
  | .rnd x kk => packXKK 0xC x kk
  | .drw x y n => packXYN 0xD x y (BitVec.ofFin (w := 4) n)
  | .skp x => packXKK 0xE x 0x9E
  | .sknp x => packXKK 0xE x 0xA1
  | .ldVxDT x => packXKK 0xF x 0x07
  | .ldVxK x => packXKK 0xF x 0x0A
  | .ldDTVx x => packXKK 0xF x 0x15
  | .ldSTVx x => packXKK 0xF x 0x18
  | .addIVx x => packXKK 0xF x 0x1E
  | .ldFVx x => packXKK 0xF x 0x29
  | .ldBVx x => packXKK 0xF x 0x33
  | .storeRegs x => packXKK 0xF x 0x55
  | .loadRegs x => packXKK 0xF x 0x65

/-- The two bytes of a word as they lie in memory, the high byte first (20_memory.md R52). -/
def wordBytes (w : Word) : List Byte := [w.extractLsb' 8 8, w.extractLsb' 0 8]

/-- The word of a table row's bits: bit 0 is the least significant bit of the one word, every bit from `nbits` up is 0. -/
def tableWord (nbits w : Nat) : Word := BitVec.ofNat 16 (w % 2 ^ nbits)

/-- The instruction this decoder reads from the bytes of a table row's word (30_encoding.md R71), none where it rejects. -/
def decodeTableWord (nbits w : Nat) : Option Instr :=
  match decodeBytes (wordBytes (tableWord nbits w)) with
  | .ok (i, _) => some i
  | .error _ => none

end Sys2Proof
end

