-- ==== Sys2Proof/Config.lean ====
section
/-! DEFINITION. The constants of 00_scope.md R8, the parameters of R9 with their defaults, the font, and the free values. -/

namespace Sys2Proof

namespace Config

/-- `MEM_SIZE` (00_scope.md R8). -/
abbrev memSize : Nat := 4096

/-- `ENTRY`, the address of the first fetch (00_scope.md R8; 20_memory.md R59). -/
abbrev entry : Nat := 0x200

/-- `MAX_IMAGE` = `MEM_SIZE - ENTRY` (00_scope.md R8). -/
abbrev maxImage : Nat := 3584

/-- `STACK_DEPTH` (00_scope.md R8). -/
abbrev stackDepth : Nat := 16

/-- `FB_W` (00_scope.md R8). -/
abbrev fbWidth : Nat := 64

/-- `FB_H` (00_scope.md R8). -/
abbrev fbHeight : Nat := 32

/-- `FONT_BASE` (00_scope.md R8). -/
abbrev fontBase : Nat := 0x050

/-- The number of font bytes, 16 glyphs of 5 bytes (20_memory.md R60). PRESUMED by the spec itself (log 19). -/
abbrev fontSize : Nat := 80

/-- Glyphs 0 to 7 of the font table of 20_memory.md R60. -/
def fontLow : List Byte :=
  [0xF0, 0x90, 0x90, 0x90, 0xF0] ++ [0x20, 0x60, 0x20, 0x20, 0x70] ++
  [0xF0, 0x10, 0xF0, 0x80, 0xF0] ++ [0xF0, 0x10, 0xF0, 0x10, 0xF0] ++
  [0x90, 0x90, 0xF0, 0x10, 0x10] ++ [0xF0, 0x80, 0xF0, 0x10, 0xF0] ++
  [0xF0, 0x80, 0xF0, 0x90, 0xF0] ++ [0xF0, 0x10, 0x20, 0x40, 0x40]

/-- Glyphs 8 to F of the font table of 20_memory.md R60. -/
def fontHigh : List Byte :=
  [0xF0, 0x90, 0xF0, 0x90, 0xF0] ++ [0xF0, 0x90, 0xF0, 0x10, 0xF0] ++
  [0xF0, 0x90, 0xF0, 0x90, 0x90] ++ [0xE0, 0x90, 0xE0, 0x90, 0xE0] ++
  [0xF0, 0x80, 0x80, 0x80, 0xF0] ++ [0xE0, 0x90, 0x90, 0x90, 0xE0] ++
  [0xF0, 0x80, 0xF0, 0x80, 0xF0] ++ [0xF0, 0x80, 0xF0, 0x80, 0x80]

/-- The standard font, the default of the parameter `FONT` (20_memory.md R60; 00_scope.md R9). -/
def standardFont : Vector Byte fontSize := ⟨(fontLow ++ fontHigh).toArray, by decide⟩

/-- What a byte of memory reads as after construction with the default font: the font at `FONT_BASE`, zero everywhere
else (20_memory.md R59). It is also what an address the memory does not list reads as (log 26). -/
def resetByte (a : Nat) : Byte :=
  if fontBase ≤ a ∧ a < fontBase + fontSize then (fontLow ++ fontHigh).getD (a - fontBase) 0 else 0

/-! Free values: nothing in Lean can evaluate them. -/

/-- The random byte `r` the host supplies for a cycle that is not queued with one, one draw per cycle, under no law
(41_alu.md R133; 10_state.md R40; D14; log 3). -/
opaque randomByte : Nat → Byte

/-- `V` after construction under `P_RESET_REGS = ARBITRARY` (10_state.md R41; log 4). -/
opaque arbitraryV : Vector Byte 16

/-- `I` after construction under `P_RESET_REGS = ARBITRARY` (10_state.md R41; log 4). -/
opaque arbitraryI : Word

/-- `DT` after construction under `P_RESET_REGS = ARBITRARY` (10_state.md R41; log 4). -/
opaque arbitraryDT : Byte

/-- `ST` after construction under `P_RESET_REGS = ARBITRARY` (10_state.md R41; log 4). -/
opaque arbitraryST : Byte

/-- `FB` after construction under `P_RESET_REGS = ARBITRARY`, every pixel 0 or 1 (10_state.md R41; log 4). -/
opaque arbitraryFB : Vector (Vector Bool 64) 32

end Config

/-- `P_SUB_VF`: what `VF` means after `8XY5` and `8XY7` (00_scope.md R9; D8). -/
inductive SubVf where
  | notBorrow
  | borrow
  deriving DecidableEq, Repr

/-- `P_SHIFT_SRC`: the register `8XY6` and `8XYE` shift (00_scope.md R9; D9). -/
inductive ShiftSrc where
  | vx
  | vy
  deriving DecidableEq, Repr

/-- `P_FX1E_VF`: whether `FX1E` writes `VF` (00_scope.md R9; D10). -/
inductive Fx1eVf where
  | unchanged
  | overflowFFF
  deriving DecidableEq, Repr

/-- `P_LDST_I`: what `FX55` and `FX65` do to `I` (00_scope.md R9; D11). -/
inductive LdstI where
  | unchanged
  | incXPlus1
  | incX
  deriving DecidableEq, Repr

/-- `P_KEY_INDEX`: what `EX9E` and `EXA1` do with a key number above 15 (00_scope.md R9; D12). -/
inductive KeyIndexRule where
  | fault
  | lowNibble
  deriving DecidableEq, Repr

/-- `P_FX0A_TRIGGER`: what completes a key wait (00_scope.md R9; D13). -/
inductive KeyTrigger where
  | pressEdge
  | level
  deriving DecidableEq, Repr

/-- `P_RESET_REGS`: the registers, timers and framebuffer after construction (00_scope.md R9; D17). -/
inductive ResetRegs where
  | zero
  | arbitrary
  deriving DecidableEq, Repr

/-- The parameters of 00_scope.md R9, "The model takes each as an argument". They stand in `State` as a field that no
transition writes, so a statement about every state holds for every setting (log 6). `CYCLE_HZ` is "not modelled" by R9. -/
structure Params where
  /-- `P_SUB_VF` -/
  subVf : SubVf
  /-- `P_SHIFT_SRC` -/
  shiftSrc : ShiftSrc
  /-- `P_FX1E_VF` -/
  fx1eVf : Fx1eVf
  /-- `P_LDST_I` -/
  ldstI : LdstI
  /-- `P_KEY_INDEX` -/
  keyIndex : KeyIndexRule
  /-- `P_FX0A_TRIGGER` -/
  keyTrigger : KeyTrigger
  /-- `FONT` -/
  font : Vector Byte 80
  /-- `FONT_GLYPH_BYTES` -/
  fontGlyphBytes : Nat
  /-- `P_RESET_REGS` -/
  resetRegs : ResetRegs
  deriving DecidableEq, Repr

/-- The defaults of 00_scope.md R9. -/
def Params.default : Params where
  subVf := .notBorrow
  shiftSrc := .vx
  fx1eVf := .unchanged
  ldstI := .unchanged
  keyIndex := .fault
  keyTrigger := .pressEdge
  font := Config.standardFont
  fontGlyphBytes := 5
  resetRegs := .zero

end Sys2Proof
end

