-- ==== Sys2Proof/Machine/Memory.lean ====
section
/-! DEFINITION. `MEM`, the one 4096-byte address space (20_memory.md R50), as a canonical list of cells. -/

namespace Sys2Proof.Machine

/-- `MEM` as the list of the bytes that differ from the reset contents, addresses strictly rising (log 26). -/
abbrev Memory := List Host.Cell

namespace Memory

/-- An address is an integer in `[0, 4096)` (20_memory.md R50). -/
abbrev inRange (a : Nat) : Prop := a < Config.memSize

/-- Addresses strictly rising, in range, and no entry equal to what an unlisted address reads as, above a bound. -/
def wfFrom : Nat → Memory → Bool
  | _, [] => true
  | lo, (a, b) :: m => decide (lo ≤ a) && decide (a < Config.memSize) && b != Config.resetByte a && wfFrom (a + 1) m

/-- The canonical form: equal memories are equal lists. -/
def wf (m : Memory) : Bool := wfFrom 0 m

/-- The byte at an address: the listed one, else the reset contents (20_memory.md R57, R59). -/
def read : Memory → Nat → Byte
  | [], a => Config.resetByte a
  | (c, d) :: m, a => if c = a then d else read m a

/-- Write one byte; writing the reset contents removes the entry. -/
def write : Memory → Nat → Byte → Memory
  | [], a, b => if b = Config.resetByte a then [] else [(a, b)]
  | (c, d) :: m, a, b =>
    if a < c then (if b = Config.resetByte a then (c, d) :: m else (a, b) :: (c, d) :: m)
    else if c = a then (if b = Config.resetByte a then m else (a, b) :: m)
    else (c, d) :: write m a b

/-- Write bytes at `a`, `a + 1`, ... in ascending order (42_index_memory.md R153). -/
def writeBytes : Memory → Nat → List Byte → Memory
  | m, _, [] => m
  | m, a, b :: bs => writeBytes (write m a b) (a + 1) bs

/-- The bytes at `a`, `a + 1`, ..., `a + n - 1` (00_scope.md R12 `MemRead`). -/
def readBytes (m : Memory) (a n : Nat) : List Byte := (List.range n).map fun k => read m (a + k)

end Memory

end Sys2Proof.Machine
end

