-- ==== Sys2Proof/Machine/State.lean ====
section
/-! DEFINITION. The state of CORE (10_state.md), the error record (60_exceptions.md R201, R202), the host's transitions
(60_exceptions.md R222) and the reasons a step can stop. -/

namespace Sys2Proof.Machine

/-- `STATUS` (10_state.md R37). -/
inductive Status where
  /-- after construction, before a successful load -/
  | unloaded
  /-- after a successful load -/
  | run
  /-- after a fatal error -/
  | halted
  deriving DecidableEq, Repr

/-- The `reason` of a `LoadError` (60_exceptions.md R205). -/
inductive LoadReason where
  | tooLarge
  | empty
  deriving DecidableEq, Repr

/-- The `kind` of an `InvariantViolation` (60_exceptions.md R207). -/
inductive InvariantKind where
  /-- a data access outside `[0, 4096)` -/
  | memBounds
  /-- `EX9E` or `EXA1` with a key number above 15 -/
  | keyIndex
  /-- a register index outside 0 to 15: "No instruction can cause it", and none of this model does -/
  | regIndex
  deriving DecidableEq, Repr

/-- The class of a fatal error with the `info` it records (60_exceptions.md R202). The `pc` of `FetchError` and
`DecodeError` is the record's `pcFetch`. -/
inductive ErrorInfo where
  | loadError (reason : LoadReason) (length : Nat)
  | fetchError (pc : Word)
  | decodeError (word : Word) (pc : Word)
  | stackOverflow (value : Word)
  | stackUnderflow
  | invariantViolation (kind : InvariantKind) (value : Nat)
  deriving DecidableEq, Repr

/-- The error record (60_exceptions.md R201): `pcFetch` is the fetch address of the instruction whose cycle failed, absent for
`LoadError`. Its `code` and `class` are functions of `info` (`ErrorRecord.code`, `ErrorRecord.className`). -/
structure ErrorRecord where
  pcFetch : Option Word
  info : ErrorInfo
  deriving DecidableEq, Repr

/-- The framebuffer, `FB[y][x]` (10_state.md R35): 32 rows of 64 one-bit pixels. -/
abbrev Framebuffer := Vector (Vector Bool 64) 32

/-- A transition the host issues (60_exceptions.md R222, R223; 00_scope.md R16). -/
inductive HostMove where
  /-- the one-time program load -/
  | load (image : List Byte)
  /-- one instruction cycle with the key state and the random byte the host supplies -/
  | cycle (keys : KeyState) (r : Byte)
  /-- one timer step -/
  | timerStep
  /-- the host changes the key state -/
  | setKeys (keys : KeyState)
  deriving DecidableEq, Repr

/-- The state of CORE (10_state.md, its table), then the inputs and parameters a step needs, then the model's own fields. -/
structure State where
  /-- `MEM` (20_memory.md R50) -/
  mem : Memory
  /-- `V[0..15]` (R20) -/
  v : Vector Byte 16
  /-- `pc` (R24) -/
  pc : Word
  /-- `I` (R28) -/
  i : Word
  /-- `STACK[0..15]` (R29) -/
  stack : Vector Word 16
  /-- `SP`, the number of entries in use, 0 to 16 (R29) -/
  sp : Fin 17
  /-- `DT` (R33) -/
  dt : Byte
  /-- `ST` (R33) -/
  st : Byte
  /-- `FB` (R35) -/
  fb : Framebuffer
  /-- `KEYS`, owned by the host (R36) -/
  keys : KeyState
  /-- `STATUS` (R37) -/
  status : Status
  /-- `ERR` (R37) -/
  err : Option ErrorRecord
  /-- `KW_ACTIVE` (R38) -/
  kwActive : Bool
  /-- `KW_MASK` (R38) -/
  kwMask : KeyState
  /-- the input `r` of the cycle under way, latched when the cycle begins (30_encoding.md R76; log 3) -/
  rand : Byte
  /-- the MODEL's own: how many random bytes have been drawn from `Config.randomByte` (log 3) -/
  draws : Nat
  /-- the parameters of 00_scope.md R9, written by no transition (log 6) -/
  params : Params
  /-- the MODEL's own: the host's pending transitions, oldest first; when it is empty the instruction-cycle driver moves (log 1) -/
  inbox : List HostMove
  deriving DecidableEq, Repr

/-- Why the machine has stopped. -/
inductive Fault where
  /-- A cycle in `HALTED`: "the cycle has no step, and the state keeps its error record" (30_encoding.md R86; 60_exceptions.md
  R204). Raised by `cycle`, with the record. Safe: the machine stops where the spec's run has ended. -/
  | halted (record : Option ErrorRecord)
  deriving DecidableEq, Repr

/-- Why a transition is refused. -/
inductive Refusal where
  /-- An instruction without a meaning yet. Raised by an arm of `exec` only; safe. -/
  | notModelled (mnemonic : String)
  /-- A cycle in `UNLOADED`: "the cycle has no step: the model refuses it" (30_encoding.md R86). Raised by `cycle`; safe. -/
  | cycleUnloaded
  /-- A load outside `UNLOADED`: "has no step" (70_reset_and_hazards.md R241). Raised by `loadImage`; safe. -/
  | loadNotUnloaded
  deriving DecidableEq, Repr

/-- What an instruction, a cycle or a host transition answers. -/
abbrev Result := Host.Outcome State Fault Refusal

/-- The state after construction with the default parameters (70_reset_and_hazards.md R240; 10_state.md R41): the only reset
CORE has. `STATUS` is `UNLOADED`; a program comes to run through the load transition (log 2). The values other than `MEM`
and `pc` are the spec's own choice D17 (log 4), and `keys`, `rand`, `draws`, `inbox` the model's (log 5, 3, 1). -/
def State.reset : State where
  mem := []
  v := Vector.replicate 16 0
  pc := 0x200
  i := 0
  stack := Vector.replicate 16 0
  sp := 0
  dt := 0
  st := 0
  fb := Vector.replicate 32 (Vector.replicate 64 false)
  keys := 0
  status := .unloaded
  err := none
  kwActive := false
  kwMask := 0
  rand := 0
  draws := 0
  params := Params.default
  inbox := []

end Sys2Proof.Machine
end

