-- ==== Sys2Proof/Machine/Ops.lean ====
section
/-! DEFINITION. The named operations over registers, pc, call stack, memory and framebuffer, and the fatal error: each said once. -/

namespace Sys2Proof.Machine

/-! ## The error record (60_exceptions.md R201, R202) -/

/-- `code`, "a number from the table of rule R202" (60_exceptions.md R201, R202; D18; log 21). -/
def ErrorRecord.code (r : ErrorRecord) : Nat :=
  match r.info with
  | .loadError _ _ => 1
  | .fetchError _ => 2
  | .decodeError _ _ => 3
  | .stackOverflow _ => 4
  | .stackUnderflow => 5
  | .invariantViolation _ _ => 6

/-- `class`, "the class name from that table" (60_exceptions.md R201, R202). -/
def ErrorRecord.className (r : ErrorRecord) : String :=
  match r.info with
  | .loadError _ _ => "LoadError"
  | .fetchError _ => "FetchError"
  | .decodeError _ _ => "DecodeError"
  | .stackOverflow _ => "StackOverflow"
  | .stackUnderflow => "StackUnderflow"
  | .invariantViolation _ _ => "InvariantViolation"

namespace State

/-! ## Taking a fatal error (60_exceptions.md R203) -/

/-- Stop the run with a record: `STATUS <- HALTED`, `ERR <- record` (60_exceptions.md R203). -/
def halt (r : ErrorRecord) (s : State) : State := { s with status := .halted, err := some r }

/-- The address the executing instruction was fetched from: while it executes, `pc` holds that address plus 2
(10_state.md R24; log 8). -/
def fetchAddr (s : State) : Word := s.pc - 2

/-- A fatal error of the execute phase, raised on the state the instruction began with: the cycle commits none of its
writes, so `pc` goes back to the fetch address, which the record names (60_exceptions.md R203; D5; log 7). -/
def raise (info : ErrorInfo) (s : State) : State :=
  { s.halt { pcFetch := some s.fetchAddr, info := info } with pc := s.fetchAddr }

/-! ## Registers (10_state.md R20, R21, R22) -/

/-- Read `V[r]`. -/
def reg (s : State) (r : Reg) : Byte := s.v[r]

/-- `V[r] <- b`. -/
def setReg (r : Reg) (b : Byte) (s : State) : State := { s with v := s.v.set r.val b r.isLt }

/-- Write a flag into `VF`: 1 or 0 (10_state.md R21). -/
def setFlag (f : Bool) (s : State) : State := s.setReg vF (if f then 1 else 0)

/-- Write a result and then the flag into `VF`: both were computed before, so a destination `VF` ends as the flag (10_state.md R22). -/
def setRegFlag (r : Reg) (b : Byte) (f : Bool) (s : State) : State := (s.setReg r b).setFlag f

/-! ## Program counter (10_state.md R24, R25) -/

/-- `pc <- target`, never checked here (40_control_flow.md R101). -/
def jump (target : Word) (s : State) : State := { s with pc := target }

/-- Skip the next word when the condition holds: `pc <- (pc + 2) mod 2^16` (40_control_flow.md R106). -/
def skipIf (c : Bool) (s : State) : State := if c then s.jump (s.pc + 2) else s

/-! ## Call stack (10_state.md R29 to R32) -/

/-- The state after a push on a stack that is not full (10_state.md R30). -/
def pushed (v : Word) (s : State) (h : s.sp.val < Config.stackDepth) : State :=
  { s with stack := s.stack.set s.sp.val v h, sp := ⟨s.sp.val + 1, Nat.succ_lt_succ h⟩ }

/-- `STACK[SP-1]`, the top entry when `SP > 0` (10_state.md R29). -/
def top (s : State) : Word := s.stack[s.sp.val - 1]'(by omega)

/-- The state after a pop from a stack that is not empty: the entry itself stays (10_state.md R31, R32). -/
def popped (s : State) : State := { s with sp := ⟨s.sp.val - 1, by omega⟩ }

/-! ## Outputs (10_state.md R34; 43_display.md R177) -/

/-- `sound_active = ST > 0` (10_state.md R34; 60_exceptions.md R221). -/
def soundActive (s : State) : Bool := decide (0 < s.st.toNat)

/-- The framebuffer snapshot, row-major, a byte 0 or 1 per pixel (43_display.md R177; 10_state.md R35). -/
def snapshot (s : State) : List Byte := s.fb.toList.flatMap fun row => row.toList.map fun p => if p then 1 else 0

end State

/-- `Push(v)`, then the rest; on a full stack the fatal error `StackOverflow` (10_state.md R30; 60_exceptions.md R209). -/
def pushThen (v : Word) (k : State → State) (s : State) : Result :=
  if h : s.sp.val < Config.stackDepth then .next (k (s.pushed v h)) else .next (s.raise (.stackOverflow v))

/-- `Pop()`, then the rest with the popped value; on an empty stack the fatal error `StackUnderflow` (10_state.md R31; 60_exceptions.md
R210). -/
def popThen (k : Word → State → State) (s : State) : Result :=
  if 0 < s.sp.val then .next (k s.top s.popped) else .next (s.raise .stackUnderflow)

/-! ## Data memory (20_memory.md R53 to R56) -/

/-- The lowest address among `base`, ..., `base + n - 1` outside `[0, 4096)`, as exact integers (20_memory.md R54, R56). -/
def firstBad (base n : Nat) : Option Nat := ((List.range n).map (base + ·)).find? fun ea => decide (Config.memSize ≤ ea)

/-- Check the `n` bytes from `I` before any byte moves: the lowest bad address is the fatal error `InvariantViolation(MEM_BOUNDS)`
and nothing else happens (20_memory.md R56; 42_index_memory.md R153). -/
def guardBounds (n : Nat) (k : State → State) (s : State) : Result :=
  match firstBad s.i.toNat n with
  | some ea => .next (s.raise (.invariantViolation .memBounds ea))
  | none => .next (k s)

namespace State

/-- Write bytes at `I`, `I + 1`, ... in ascending order (42_index_memory.md R153). -/
def storeBytes (bs : List Byte) (s : State) : State := { s with mem := s.mem.writeBytes s.i.toNat bs }

/-- `V[k] <- MEM[I + k]` for `k` from 0 to `n - 1`, in ascending order (42_index_memory.md R158). -/
def loadFirst (s : State) : Nat → State
  | 0 => s
  | n + 1 => (loadFirst s n).setReg (Fin.ofNat 16 n) (s.mem.read (s.i.toNat + n))

end State

/-! ## Framebuffer (10_state.md R35; 43_display.md R171 to R174) -/

/-- A pixel: column `x` and row `y`. -/
abbrev Pixel := Fin 64 × Fin 32

namespace Framebuffer

/-- The clear framebuffer (43_display.md R170). -/
def clear : Framebuffer := Vector.replicate 32 (Vector.replicate 64 false)

/-- `FB[y][x]`. -/
def pixel (fb : Framebuffer) (p : Pixel) : Bool := (fb[p.2])[p.1]

/-- `FB[y][x] <- FB[y][x] ^ 1` (43_display.md R172). -/
def flip (fb : Framebuffer) (p : Pixel) : Framebuffer :=
  fb.set p.2.val ((fb[p.2]).set p.1.val (!fb.pixel p) p.1.isLt) p.2.isLt

/-- One pixel of a sprite: a set pixel turned off is a collision (43_display.md R172). -/
def drawPixel (acc : Framebuffer × Bool) (p : Pixel) : Framebuffer × Bool :=
  (acc.1.flip p, acc.2 || acc.1.pixel p)

/-- Draw the pixels of a sprite one after another: the new framebuffer and the aggregate collision flag (43_display.md R172). -/
def drawPixels (fb : Framebuffer) (ps : List Pixel) : Framebuffer × Bool := ps.foldl drawPixel (fb, false)

end Framebuffer

end Sys2Proof.Machine
end

