-- ==== Sys2Proof/Machine/Operands.lean ====
section
/-! DEFINITION. The operand forms: what an instruction reads, from the state it begins with (00_scope.md R13). -/

namespace Sys2Proof.Machine

namespace State

/-- `V[0]` to `V[x]`, lowest first: the bytes `FX55` stores (42_index_memory.md R156). -/
def regsUpTo (s : State) (x : Reg) : List Byte := s.v.toList.take (x.val + 1)

/-- The operand of `8XY6` and `8XYE`: `V[X]` or `V[Y]` by `P_SHIFT_SRC` (41_alu.md R130, R132; D9; log 14). -/
def shiftOperand (s : State) (x y : Reg) : Byte :=
  match s.params.shiftSrc with
  | .vx => s.reg x
  | .vy => s.reg y

/-- `UpdateI(X)`, by `P_LDST_I` (42_index_memory.md R157; D11; log 16). -/
def updateI (x : Reg) (s : State) : State :=
  match s.params.ldstI with
  | .unchanged => s
  | .incXPlus1 => { s with i := s.i + BitVec.ofNat 16 (x.val + 1) }
  | .incX => { s with i := s.i + BitVec.ofNat 16 x.val }

/-- The address of the font glyph of a byte's low nibble (42_index_memory.md R152; D15; log 19). -/
def glyphAddr (s : State) (b : Byte) : Word :=
  BitVec.ofNat 16 (Config.fontBase + s.params.fontGlyphBytes * (b.toNat % 16))

/-- `KeyIndex(vx)`, none where it raises (44_timers_keys.md R180; D12; log 17). -/
def keyIndex (s : State) (b : Byte) : Option Nat :=
  match s.params.keyIndex with
  | .fault => if b.toNat < 16 then some b.toNat else none
  | .lowNibble => some (b.toNat % 16)

/-- `is_key_pressed(k)` (10_state.md R36). -/
def keyPressed (s : State) (k : Nat) : Bool := s.keys.getLsbD k

/-- `new` of the key wait: the keys that complete it now (44_timers_keys.md R185; D13; log 18). -/
def newKeys (s : State) : KeyState :=
  match s.params.keyTrigger with
  | .level => s.keys
  | .pressEdge => if s.kwActive then s.keys &&& ~~~s.kwMask else 0

end State

/-- `min { k : new[k] == 1 }` (44_timers_keys.md R185, R186). -/
def lowestKey (ks : KeyState) : Byte :=
  BitVec.ofNat 8 (((List.range 16).find? fun k => ks.getLsbD k).getD 0)

/-- The three decimal digits of a byte, hundreds first (42_index_memory.md R154; D16; log 20). -/
def bcdDigits (b : Byte) : List Byte :=
  [BitVec.ofNat 8 (b.toNat / 100), BitVec.ofNat 8 (b.toNat / 10 % 10), BitVec.ofNat 8 (b.toNat % 10)]

/-- The pixels of sprite row `r` with byte `b`, most-significant bit first, wrapped at both edges (43_display.md R171, R173). -/
def rowPixels (vx vy : Byte) (r : Nat) (b : Byte) : List Pixel :=
  (List.range 8).filterMap fun c =>
    if b.getLsbD (7 - c) then some (Fin.ofNat 64 (vx.toNat + c), Fin.ofNat 32 (vy.toNat + r)) else none

/-- The pixels a sprite of `n` rows at `I` touches, row by row (43_display.md R171, R172). -/
def State.spritePixels (s : State) (vx vy : Byte) (n : Nat) : List Pixel :=
  (List.range n).flatMap fun r => rowPixels vx vy r (s.mem.read (s.i.toNat + r))

end Sys2Proof.Machine
end

