-- ==== Sys2Proof/Machine/Flags.lean ====
section
/-! DEFINITION. Every flag computation: what `VF` becomes as a flag (10_state.md R23). -/

namespace Sys2Proof.Machine

/-- The carry of `8XY4`: 1 when `vx + vy > 255` (41_alu.md R128). -/
def carryOut (a b : Byte) : Bool := decide (255 < a.toNat + b.toNat)

/-- The flag of `8XY5` and `8XY7` by `P_SUB_VF`: no borrow, or borrow (41_alu.md R129, R131; D8; log 13). -/
def State.subFlag (s : State) (minuend subtrahend : Byte) : Bool :=
  match s.params.subVf with
  | .notBorrow => decide (subtrahend.toNat ≤ minuend.toNat)
  | .borrow => decide (minuend.toNat < subtrahend.toNat)

/-- The bit `8XY6` shifts out: bit 0 (41_alu.md R130). -/
def shrOut (b : Byte) : Bool := b.getLsbD 0

/-- The bit `8XYE` shifts out: bit 7 (41_alu.md R132). -/
def shlOut (b : Byte) : Bool := b.getLsbD 7

/-- The `OVERFLOW_FFF` flag of `FX1E`: the exact sum is above 0xFFF (42_index_memory.md R151; D10; log 15). -/
def overflowFFF (i : Word) (b : Byte) : Bool := decide (0x0FFF < i.toNat + b.toNat)

/-- The effect of `FX1E` on `VF` by `P_FX1E_VF` (42_index_memory.md R151). -/
def State.fx1eFlag (f : Bool) (s : State) : State :=
  match s.params.fx1eVf with
  | .unchanged => s
  | .overflowFFF => s.setFlag f

end Sys2Proof.Machine
end

