-- ==== Sys2Proof/Machine/Alu.lean ====
section
/-! DEFINITION. Register loads and the ALU (41_alu.md). Every result is modulo 256 (R120); `VF` is written last (10_state.md R22). -/

namespace Sys2Proof.Machine

/-- `6XKK` LD Vx, byte (R122). -/
def execLdByte (x : Reg) (kk : Byte) (s : State) : Result := .next (s.setReg x kk)

/-- `7XKK` ADD Vx, byte (R123): no flag. -/
def execAddByte (x : Reg) (kk : Byte) (s : State) : Result := .next (s.setReg x (s.reg x + kk))

/-- `8XY0` LD Vx, Vy (R124). -/
def execLdReg (x y : Reg) (s : State) : Result := .next (s.setReg x (s.reg y))

/-- `8XY1` OR Vx, Vy (R125): no flag. -/
def execOrReg (x y : Reg) (s : State) : Result := .next (s.setReg x (s.reg x ||| s.reg y))

/-- `8XY2` AND Vx, Vy (R126): no flag. -/
def execAndReg (x y : Reg) (s : State) : Result := .next (s.setReg x (s.reg x &&& s.reg y))

/-- `8XY3` XOR Vx, Vy (R127): no flag. -/
def execXorReg (x y : Reg) (s : State) : Result := .next (s.setReg x (s.reg x ^^^ s.reg y))

/-- `8XY4` ADD Vx, Vy (R128). -/
def execAddReg (x y : Reg) (s : State) : Result :=
  .next (s.setRegFlag x (s.reg x + s.reg y) (carryOut (s.reg x) (s.reg y)))

/-- `8XY5` SUB Vx, Vy (R129). -/
def execSubReg (x y : Reg) (s : State) : Result :=
  .next (s.setRegFlag x (s.reg x - s.reg y) (s.subFlag (s.reg x) (s.reg y)))

/-- `8XY6` SHR Vx, Vy (R130). -/
def execShrReg (x y : Reg) (s : State) : Result :=
  .next (s.setRegFlag x (s.shiftOperand x y >>> 1) (shrOut (s.shiftOperand x y)))

/-- `8XY7` SUBN Vx, Vy (R131). -/
def execSubnReg (x y : Reg) (s : State) : Result :=
  .next (s.setRegFlag x (s.reg y - s.reg x) (s.subFlag (s.reg y) (s.reg x)))

/-- `8XYE` SHL Vx, Vy (R132). -/
def execShlReg (x y : Reg) (s : State) : Result :=
  .next (s.setRegFlag x (s.shiftOperand x y <<< 1) (shlOut (s.shiftOperand x y)))

/-- `CXKK` RND Vx, byte (R133): `rand` is the byte `r` of this cycle. -/
def execRnd (x : Reg) (kk : Byte) (s : State) : Result := .next (s.setReg x (s.rand &&& kk))

end Sys2Proof.Machine
end

