-- ==== Sys2Proof/Machine/Control.lean ====
section
/-! DEFINITION. Control transfer (40_control_flow.md). `pc` holds the fetch address plus 2 when a meaning begins. -/

namespace Sys2Proof.Machine

/-- `00EE` RET (R103). -/
def execRet (s : State) : Result := popThen State.jump s

/-- `1NNN` JP addr (R104). -/
def execJp (nnn : Imm12) (s : State) : Result := .next (s.jump (nnn.setWidth 16))

/-- `2NNN` CALL addr (R105): the return address pushed is `pc`, the address after the call. -/
def execCall (nnn : Imm12) (s : State) : Result := pushThen s.pc (State.jump (nnn.setWidth 16)) s

/-- `3XKK` SE Vx, byte (R107). -/
def execSeByte (x : Reg) (kk : Byte) (s : State) : Result := .next (s.skipIf (s.reg x == kk))

/-- `4XKK` SNE Vx, byte (R108). -/
def execSneByte (x : Reg) (kk : Byte) (s : State) : Result := .next (s.skipIf (s.reg x != kk))

/-- `5XY0` SE Vx, Vy (R109). -/
def execSeReg (x y : Reg) (s : State) : Result := .next (s.skipIf (s.reg x == s.reg y))

/-- `9XY0` SNE Vx, Vy (R110). -/
def execSneReg (x y : Reg) (s : State) : Result := .next (s.skipIf (s.reg x != s.reg y))

/-- `BNNN` JP V0, addr (R111): the register is always `V0`, the sum is not reduced modulo 4096. -/
def execJpV0 (nnn : Imm12) (s : State) : Result :=
  .next (s.jump (nnn.setWidth 16 + (s.reg 0).setWidth 16))

end Sys2Proof.Machine
end

