-- ==== Sys2Proof/Machine/Display.lean ====
section
/-! DEFINITION. The framebuffer controller (43_display.md). -/

namespace Sys2Proof.Machine

/-- `00E0` CLS (R170). -/
def execCls (s : State) : Result := .next { s with fb := Framebuffer.clear }

/-- The effect of `DXYN` once its addresses are good: the pixels, then `VF` (R172, R175). -/
def State.drawn (x y : Reg) (n : Nat) (s : State) : State :=
  let d := s.fb.drawPixels (s.spritePixels (s.reg x) (s.reg y) n)
  { s with fb := d.1 }.setFlag d.2

/-- `DXYN` DRW Vx, Vy, nibble (R172). -/
def execDrw (x y : Reg) (n : Fin 16) (s : State) : Result := guardBounds n.val (State.drawn x y n.val) s

end Sys2Proof.Machine
end

