-- ==== Sys2Proof/Machine/Index.lean ====
section
/-! DEFINITION. Index register and memory block instructions (42_index_memory.md). -/

namespace Sys2Proof.Machine

/-- `ANNN` LD I, addr (R150). -/
def execLdI (nnn : Imm12) (s : State) : Result := .next { s with i := nnn.setWidth 16 }

/-- `FX1E` ADD I, Vx (R151). -/
def execAddIVx (x : Reg) (s : State) : Result :=
  .next ({ s with i := s.i + (s.reg x).setWidth 16 }.fx1eFlag (overflowFFF s.i (s.reg x)))

/-- `FX29` LD F, Vx (R152). -/
def execLdFVx (x : Reg) (s : State) : Result := .next { s with i := s.glyphAddr (s.reg x) }

/-- `FX33` LD B, Vx (R154). -/
def execLdBVx (x : Reg) (s : State) : Result := guardBounds 3 (State.storeBytes (bcdDigits (s.reg x))) s

/-- `FX55` LD [I], Vx (R156): the bytes, then `UpdateI` (R157). -/
def execStoreRegs (x : Reg) (s : State) : Result :=
  guardBounds (x.val + 1) (fun t => (t.storeBytes (t.regsUpTo x)).updateI x) s

/-- `FX65` LD Vx, [I] (R158): the registers, then `UpdateI` (R157). -/
def execLoadRegs (x : Reg) (s : State) : Result :=
  guardBounds (x.val + 1) (fun t => (t.loadFirst (x.val + 1)).updateI x) s

end Sys2Proof.Machine
end

