-- ==== Sys2Proof/Machine/KeysTimers.lean ====
section
/-! DEFINITION. Keypad and timer instructions (44_timers_keys.md). -/

namespace Sys2Proof.Machine

/-- `EX9E` and `EXA1` after the key index: skip when the key's state is the wanted one, or the fatal error
`InvariantViolation(KEY_INDEX, vx)` (R180 to R182). -/
def skipOnKey (pressed : Bool) (b : Byte) (s : State) : Result :=
  match s.keyIndex b with
  | some k => .next (s.skipIf (s.keyPressed k == pressed))
  | none => .next (s.raise (.invariantViolation .keyIndex b.toNat))

/-- `EX9E` SKP Vx (R181). -/
def execSkp (x : Reg) (s : State) : Result := skipOnKey true (s.reg x) s

/-- `EXA1` SKNP Vx (R182). -/
def execSknp (x : Reg) (s : State) : Result := skipOnKey false (s.reg x) s

/-- `FX07` LD Vx, DT (R183). -/
def execLdVxDT (x : Reg) (s : State) : Result := .next (s.setReg x s.dt)

/-- `FX0A` LD Vx, K (R185): the wait completes with the lowest new key, or this opcode is entered again next cycle (R184). -/
def execLdVxK (x : Reg) (s : State) : Result :=
  if s.newKeys ≠ 0 then .next { s.setReg x (lowestKey s.newKeys) with kwActive := false, kwMask := 0 }
  else .next { s with kwActive := true, kwMask := s.keys, pc := s.fetchAddr }

/-- `FX15` LD DT, Vx (R188). -/
def execLdDTVx (x : Reg) (s : State) : Result := .next { s with dt := s.reg x }

/-- `FX18` LD ST, Vx (R189). -/
def execLdSTVx (x : Reg) (s : State) : Result := .next { s with st := s.reg x }

end Sys2Proof.Machine
end

