-- ==== Sys2Proof/Machine/HostMoves.lean ====
section
/-! DEFINITION. What the host does beside the cycle: construction, the program load, the timer step (60_exceptions.md R222). -/

namespace Sys2Proof.Machine

/-- Construction with parameters (70_reset_and_hazards.md R240; 10_state.md R41): the font of `FONT` at 0x050, and under
`P_RESET_REGS = ARBITRARY` draws in `V`, `I`, `DT`, `ST` and `FB` (log 4). -/
def construct (p : Params) : State :=
  let s : State := { State.reset with params := p, mem := Memory.writeBytes [] Config.fontBase p.font.toList }
  match p.resetRegs with
  | .zero => s
  | .arbitrary =>
    { s with
      v := Config.arbitraryV, i := Config.arbitraryI, dt := Config.arbitraryDT, st := Config.arbitraryST,
      fb := Config.arbitraryFB }

/-- The check of the load, before anything is written (60_exceptions.md R205). -/
def loadReason (image : List Byte) : Option LoadReason :=
  if Config.maxImage < image.length then some .tooLarge
  else if image.length = 0 then some .empty
  else none

/-- `Load(image)` (70_reset_and_hazards.md R241): refused outside `UNLOADED`; a `LoadError` writes nothing but `STATUS` and `ERR`. -/
def loadImage (image : List Byte) (s : State) : Result :=
  match s.status with
  | .unloaded =>
    match loadReason image with
    | some reason => .next (s.halt { pcFetch := none, info := .loadError reason image.length })
    | none =>
      .next { s with mem := s.mem.writeBytes Config.entry image, pc := BitVec.ofNat 16 Config.entry, status := .run }
  | .run => .refused .loadNotUnloaded
  | .halted => .refused .loadNotUnloaded

/-- One timer counts down, floored at 0 (60_exceptions.md R215). -/
def countDown (t : Byte) : Byte := if 0 < t.toNat then t - 1 else t

/-- `TimerStep()`, in every `STATUS` (60_exceptions.md R215, R217). -/
def timerStep (s : State) : State := { s with dt := countDown s.dt, st := countDown s.st }

end Sys2Proof.Machine
end

