-- ==== Sys2Proof/Machine/Cycle.lean ====
section
/-! DEFINITION. Fetch, the instruction cycle, and the host's transitions (30_encoding.md R76, R77, R86; 60_exceptions.md R222). -/

namespace Sys2Proof.Machine

/-- Fetch the word at an address, none when `a + 1 < 4096` fails, computed exactly (30_encoding.md R77). -/
def fetchAt (m : Memory) (a : Word) : Option Word :=
  if a.toNat + 1 < Config.memSize then some (composeWord (m.read a.toNat) (m.read (a.toNat + 1))) else none

/-- The state the execute phase begins with: `pc` advanced by 2 (30_encoding.md R77; 10_state.md R24). -/
def State.advanced (s : State) : State := { s with pc := s.pc + 2 }

/-- Stop a cycle in its fetch or decode phase: `pc` is still the fetch address (60_exceptions.md R203). -/
def State.raiseAtFetch (info : ErrorInfo) (s : State) : State := s.halt { pcFetch := some s.pc, info := info }

/-- Fetch, decode, execute (30_encoding.md R76): the first error in that order is the one reported (60_exceptions.md R211). -/
def fetchDecodeExecute (s : State) : Result :=
  match fetchAt s.mem s.pc with
  | none => .next (s.raiseAtFetch (.fetchError s.pc))
  | some w =>
    match decode w with
    | .error _ => .next (s.raiseAtFetch (.decodeError w s.pc))
    | .ok i => exec i s.advanced

/-- `Cycle(K, r)` (30_encoding.md R76) behind its status gate (R86): `K` and `r` are latched, then one instruction runs. -/
def cycle (keys : KeyState) (r : Byte) (s : State) : Result :=
  match s.status with
  | .unloaded => .refused .cycleUnloaded
  | .halted => .fault (.halted s.err)
  | .run => fetchDecodeExecute { s with keys := keys, rand := r }

/-- One transition the host issues (60_exceptions.md R222, R223). -/
def hostMove (m : HostMove) (s : State) : Result :=
  match m with
  | .load image => loadImage image s
  | .cycle keys r => cycle keys r s
  | .timerStep => .next (timerStep s)
  | .setKeys keys => .next { s with keys := keys }

/-- One transition: the host's oldest pending one, or, when none is pending, a cycle with the key state as it stands and a
fresh random byte (00_scope.md R16; log 1, 3). -/
def transition (s : State) : Result :=
  match s.inbox with
  | [] => cycle s.keys (Config.randomByte s.draws) { s with draws := s.draws + 1 }
  | m :: rest => hostMove m { s with inbox := rest }

/-- The address the next cycle fetches from: `pc`, or the entry point where no word can be fetched at `pc` (log 2). -/
def fetchSlot (s : State) : Nat := if s.pc.toNat + 1 < Config.memSize then s.pc.toNat else Config.entry

/-- Place a word where the next transition fetches, in a machine that runs: it stands for the program load (log 2). -/
def placeWord (w : Word) (s : State) : State :=
  { s with
    mem := s.mem.writeBytes (fetchSlot s) (wordBytes w), pc := BitVec.ofNat 16 (fetchSlot s),
    status := .run, err := none, inbox := [] }

end Sys2Proof.Machine
end

