-- ==== Sys2Proof/Machine/Step.lean ====
section
/-! DEFINITION. The step of CORE and its host: one atomic transition (00_scope.md R16). -/

namespace Sys2Proof.Machine

/-- One atomic transition: the host's oldest pending one, else one instruction cycle. -/
def step (s : State) : Host.Outcome State Fault Refusal := transition s

/-- `s` with the word of a table row stored where `step` fetches its next instruction (log 2). -/
def State.withFetchWord (s : State) (nbits w : Nat) : State := placeWord (tableWord nbits w) s

end Sys2Proof.Machine
end

