-- ==== Sys2Proof/Safety.lean ====
section
/-! DEFINITION. What counts as a safe run, and the invariants claims use. -/

namespace Sys2Proof.Machine

namespace State

/-- A state is safe when no fatal error has stopped the run (60_exceptions.md R227). -/
abbrev Safe (s : State) : Prop := s.status ≠ .halted

/-- The memory keeps its canonical form, so every listed address is in `[0, 4096)` (20_memory.md R50; log 26). -/
abbrev MemCanonical (s : State) : Prop := s.mem.wf = true

/-- `ERR` holds a record exactly when `STATUS` is `HALTED`, "and is empty otherwise" (10_state.md R37). -/
abbrev ErrIffHalted (s : State) : Prop := s.status = .halted ↔ s.err.isSome = true

/-- No sample is kept while no key wait is pending (10_state.md R38; 44_timers_keys.md R185). -/
abbrev KeyWaitClear (s : State) : Prop := s.kwActive = false → s.kwMask = 0

/-- "the largest value `pc` can hold is 0x10FE" (10_state.md R27), with the fact about the return addresses in use that keeps it:
a call fetched below 0xFFF pushes at most 0x1000. -/
abbrev PcBounded (s : State) : Prop :=
  s.pc.toNat ≤ 0x10FE ∧ ∀ j : Fin 16, j.val < s.sp.val → (s.stack[j]).toNat ≤ 0x1000

/-- Before the load nothing has run: the entry point, an empty call stack, no key wait (10_state.md R41; 70_reset_and_hazards.md
R240). -/
abbrev UntouchedBeforeLoad (s : State) : Prop :=
  s.status = .unloaded → s.pc = 0x200 ∧ s.sp = 0 ∧ s.kwActive = false

end State

/-- A run of `k` transitions that stops nowhere and ends with no fatal error. -/
def RunsSafely (k : Nat) (s : State) : Prop := ∃ t, Sys2Proof.core.run k s = .next t ∧ t.Safe

end Sys2Proof.Machine
end

