-- ==== Sys2Proof/Certificates/Slice0/Obligations.lean ====
section
/-! DEFINITION. The statements for the provers. In a statement about `exec`, `s` is the state the execute phase begins with: `pc`
holds the fetch address plus 2 (10_state.md R24), so "`pc` unchanged" is the sequential `a + 2` of R25. An equation
`t = { s with v := t.v }` is the frame: every other field of the state, each byte of memory among them, is unchanged. -/

namespace Sys2Proof.Spec

open Sys2Proof.Machine

/-! Words written out as numbers from the formats of 30_encoding.md R73, apart from the encoder. -/

/-- Format `NNN`. -/
def wordNNN (op : Nat) (nnn : Imm12) : Word := BitVec.ofNat 16 (op * 0x1000 + nnn.toNat)

/-- Formats `XKK` and `X`. -/
def wordXKK (op : Nat) (x : Reg) (kk : Nat) : Word := BitVec.ofNat 16 (op * 0x1000 + x.val * 0x100 + kk)

/-- Formats `XY` and `XYN`. -/
def wordXYN (op : Nat) (x y : Reg) (n : Nat) : Word := BitVec.ofNat 16 (op * 0x1000 + x.val * 0x100 + y.val * 0x10 + n)

/-- The word at an address, big-endian (30_encoding.md R71). -/
def wordAt (s : State) (a : Nat) : Word := BitVec.ofNat 16 ((s.mem.read a).toNat * 256 + (s.mem.read (a + 1)).toNat)

/-- The state a fatal error leaves: `s` with `pc` at `a`, `STATUS = HALTED` and the record, and nothing else changed. The frame is
the spec's decision D5 (log 7). -/
def haltedAt (s : State) (a : Word) (info : ErrorInfo) : State :=
  { s with pc := a, status := .halted, err := some { pcFetch := some a, info := info } }

/-- The next step is a cycle: queued with its inputs, or the driver's own with no transition pending (log 1). -/
def cyclePending (s : State) : Prop := s.inbox = [] ∨ ∃ k r rest, s.inbox = .cycle k r :: rest

/-- `RUN`, and the next step is a cycle. -/
def running (s : State) : Prop := s.status = .run ∧ cyclePending s

/-- A fatal error of an instruction fetched at `a`: the run terminates with the record. -/
def failedAt (t : State) (a : Word) (info : ErrorInfo) : Prop :=
  t.status = .halted ∧ t.err = some { pcFetch := some a, info := info }

/-- The sprite of `n` rows at `I` has a set bit on the pixel, wrapped at both edges (43_display.md R171, R173). -/
def touches (s : State) (vx vy : Byte) (n : Nat) (p : Pixel) : Prop :=
  ∃ r c, r < n ∧ c < 8 ∧ (s.mem.read (s.i.toNat + r)).getLsbD (7 - c) = true ∧
    p.1.val = (vx.toNat + c) % 64 ∧ p.2.val = (vy.toNat + r) % 32

/-- Key `k` completes the wait now (44_timers_keys.md R185). -/
def keyIsNew (s : State) (k : Nat) : Prop :=
  s.keys.getLsbD k = true ∧
    (s.params.keyTrigger = .level ∨ (s.kwActive = true ∧ s.kwMask.getLsbD k = false))

/-- What an address holds once `n` bytes are stored from `I` upwards, byte `k` of them being `f k`: the stored byte where the
address is one of theirs, the old byte elsewhere. -/
def overlaid (s : State) (n : Nat) (f : Nat → Nat) (a : Nat) : Nat :=
  if s.i.toNat ≤ a ∧ a < s.i.toNat + n then f (a - s.i.toNat) else (s.mem.read a).toNat

/-- Every register but those in the list is unchanged. -/
def regsKeptBut (rs : List Reg) (s t : State) : Prop := ∀ r, r ∉ rs → t.reg r = s.reg r

end Sys2Proof.Spec

open Sys2Proof
open Sys2Proof.Machine
open Sys2Proof.Spec

/-! ## Encoding -/

/-- The encoder and the decoder agree: no bit of an encoding is dropped (30_encoding.md R72, R73). -/
def Obligations.DecodeEncodeRoundTrip : Prop := ∀ i : Instr, decode (encode i) = .ok i

/-- The other direction: a word that decodes is the encoding of what it decodes to, so no bit of a word is ignored (30_encoding.md
R82, decision D6, log 11). -/
def Obligations.EncodeDecodeRoundTrip : Prop := ∀ (w : Word) (i : Instr), decode w = .ok i → encode i = w

/-- The decoder accepts exactly the words that match a row of the opcode table (30_encoding.md R82, decision D6, log 11). -/
def Obligations.DecodeAcceptsExactlyLegalWords : Prop :=
  ∀ w : Word, (∃ i, decode w = .ok i) ↔ WellFormed.legalWord w = true

/-- No word matches two rows of the opcode table (30_encoding.md R78: "Exactly one row of `opcode_table.json` matches any legal
word"). -/
def Obligations.OpcodeRowsDoNotOverlap : Prop :=
  ∀ (w : Word) (r q : WellFormed.Row), r ∈ WellFormed.opcodeRows → q ∈ WellFormed.opcodeRows →
    r.matchesWord w = true → q.matchesWord w = true → r = q

/-- The bytes of a word as they lie in memory decode to the instruction and leave the rest (30_encoding.md R70, R71). -/
def Obligations.DecodeBytesReadsTwoBytes : Prop :=
  ∀ (i : Instr) (rest : List Byte),
    decodeBytes (wordBytes (encode i) ++ rest) = .ok (i, rest) ∧ decodeTableWord 16 (encode i).toNat = some i

/-- Sample words of every family 0 to F of the opcode map, and of every sub-operation of families 8, E and F, written out from
30_encoding.md R73 and R79 (codes of family 8: decision D7, log 12), and one illegal word of each family that has any (R82, decision
D6, log 11). -/
def Obligations.SampleWordsDecode : Prop :=
  (decode 0x00E0 = .ok .cls ∧ decode 0x00EE = .ok .ret ∧ decode 0x1234 = .ok (.jp 0x234) ∧
    decode 0x2345 = .ok (.call 0x345) ∧ decode 0x3A7B = .ok (.seByte 0xA 0x7B) ∧ decode 0x4A7B = .ok (.sneByte 0xA 0x7B) ∧
    decode 0x5120 = .ok (.seReg 1 2) ∧ decode 0x6A7B = .ok (.ldByte 0xA 0x7B) ∧ decode 0x7A7B = .ok (.addByte 0xA 0x7B)) ∧
  (decode 0x8120 = .ok (.ldReg 1 2) ∧ decode 0x8121 = .ok (.orReg 1 2) ∧ decode 0x8122 = .ok (.andReg 1 2) ∧
    decode 0x8123 = .ok (.xorReg 1 2) ∧ decode 0x8124 = .ok (.addReg 1 2) ∧ decode 0x8125 = .ok (.subReg 1 2) ∧
    decode 0x8126 = .ok (.shrReg 1 2) ∧ decode 0x8127 = .ok (.subnReg 1 2) ∧ decode 0x812E = .ok (.shlReg 1 2)) ∧
  (decode 0x9120 = .ok (.sneReg 1 2) ∧ decode 0xA300 = .ok (.ldI 0x300) ∧ decode 0xB300 = .ok (.jpV0 0x300) ∧
    decode 0xCA7B = .ok (.rnd 0xA 0x7B) ∧ decode 0xD015 = .ok (.drw 0 1 5) ∧ decode 0xE59E = .ok (.skp 5) ∧
    decode 0xE5A1 = .ok (.sknp 5)) ∧
  (decode 0xF207 = .ok (.ldVxDT 2) ∧ decode 0xF20A = .ok (.ldVxK 2) ∧ decode 0xF215 = .ok (.ldDTVx 2) ∧
    decode 0xF218 = .ok (.ldSTVx 2) ∧ decode 0xF21E = .ok (.addIVx 2) ∧ decode 0xF229 = .ok (.ldFVx 2) ∧
    decode 0xF233 = .ok (.ldBVx 2) ∧ decode 0xF255 = .ok (.storeRegs 2) ∧ decode 0xF265 = .ok (.loadRegs 2)) ∧
  decode 0x0000 = .error .machineCall ∧ decode 0x5121 = .error .family5 ∧ decode 0x8128 = .error .family8 ∧
  decode 0x9121 = .error .family9 ∧ decode 0xE59F = .error .familyE ∧ decode 0xF0FF = .error .familyF

/-! ## The cycle and the step -/

/-- A step in `RUN` runs the instruction the word at `pc` decodes to, on the state with `pc` advanced and the cycle's inputs
latched: the queued ones, or the keys as they stand and a fresh byte (30_encoding.md R76; log 1, 3). -/
def Obligations.StepRunsDecodedInstruction : Prop :=
  ∀ (s : State) (i : Instr), s.status = .run → s.pc.toNat + 1 < 4096 → decode (wordAt s s.pc.toNat) = .ok i →
    (s.inbox = [] →
      step s = exec i { s with pc := s.pc + 2, rand := Config.randomByte s.draws, draws := s.draws + 1 }) ∧
    (∀ k r rest, s.inbox = .cycle k r :: rest →
      step s = exec i { s with pc := s.pc + 2, keys := k, rand := r, inbox := rest })

/-- Fetch: both byte addresses are checked exactly, the word is big-endian and `pc` advances by 2 modulo 2^16, and every error
record of the cycle reports the address of the fetch (30_encoding.md R77). -/
def Obligations.FetchChecksAndAdvances : Prop :=
  ∀ s : State, running s →
    (4096 ≤ s.pc.toNat + 1 →
      ∃ t, step s = .next t ∧ failedAt t s.pc (.fetchError s.pc)) ∧
    (s.pc.toNat + 1 < 4096 →
      fetchAt s.mem s.pc = some (wordAt s s.pc.toNat) ∧
      (wordAt s s.pc.toNat).toNat = (s.mem.read s.pc.toNat).toNat * 256 + (s.mem.read (s.pc.toNat + 1)).toNat ∧
      ∀ i, decode (wordAt s s.pc.toNat) = .ok i →
        ∃ u, u.pc.toNat = (s.pc.toNat + 2) % 65536 ∧ step s = exec i u) ∧
    (∀ t, step s = .next t → t.status = .halted → ∃ info, t.err = some { pcFetch := some s.pc, info := info })

/-- An illegal word stops the run with the raw word and the program counter reported (60_exceptions.md R208). -/
def Obligations.IllegalWordHaltsWithDecodeError : Prop :=
  ∀ s : State, running s → s.pc.toNat + 1 < 4096 → WellFormed.legalWord (wordAt s s.pc.toNat) = false →
    ∃ t, step s = .next t ∧ failedAt t s.pc (.decodeError (wordAt s s.pc.toNat) s.pc)

/-- A fatal error of a cycle commits none of the cycle's writes: only `STATUS` and `ERR` change, and the record names the fetch
address. This is the spec's own decision D5 (60_exceptions.md R203, log 7); `keys` is the host's input, and `rand`, `draws` and
`inbox` are the model's own (log 1, 3). -/
def Obligations.FatalErrorCommitsNothing : Prop :=
  ∀ s t : State, running s → step s = .next t → t.status = .halted →
    ∃ r : ErrorRecord, r.pcFetch = some s.pc ∧ (s.inbox = [] → t.keys = s.keys) ∧
      (∀ k q rest, s.inbox = .cycle k q :: rest → t.keys = k) ∧
      t = { s with
        status := .halted, err := some r, keys := t.keys, rand := t.rand, draws := t.draws, inbox := s.inbox.tail }

/-- The status gate of a cycle: refused in `UNLOADED`, the fault with the kept record in `HALTED` (30_encoding.md R86, decision D24,
log 7). -/
def Obligations.CycleNeedsRun : Prop :=
  ∀ s : State, cyclePending s →
    (s.status = .unloaded → step s = .refused .cycleUnloaded) ∧
    (s.status = .halted → step s = .fault (.halted s.err))

/-- Nothing runs after a fatal error: only timer steps and key changes have a step, a timer step leaves the keys and a key change
the timers as they are, and neither touches anything else (60_exceptions.md R204, R217; 30_encoding.md R86; decisions D24, D25,
log 7, 23). -/
def Obligations.HaltedIsFinal : Prop :=
  ∀ s t : State, s.status = .halted → step s = .next t →
    ((∃ rest, s.inbox = .timerStep :: rest) ∧ t = { s with dt := t.dt, st := t.st, inbox := s.inbox.tail }) ∨
    (∃ k rest, s.inbox = .setKeys k :: rest ∧ t = { s with keys := k, inbox := rest })

/-- When a step answers no next state: a cycle in `HALTED`, a cycle in `UNLOADED`, a load outside `UNLOADED`, and never otherwise; and
a load outside `UNLOADED` never has one (30_encoding.md R86; 70_reset_and_hazards.md R241; decisions D24, D28, log 7, 25). -/
def Obligations.StepStopsOnlyAtTheGates : Prop :=
  ∀ s : State,
    ((∃ t, step s = .next t) ∨
      (s.status = .halted ∧ cyclePending s ∧ step s = .fault (.halted s.err)) ∨
      (s.status = .unloaded ∧ cyclePending s ∧ step s = .refused .cycleUnloaded) ∨
      (s.status ≠ .unloaded ∧ step s = .refused .loadNotUnloaded ∧ ∃ image rest, s.inbox = .load image :: rest)) ∧
    (∀ image rest, s.status ≠ .unloaded → s.inbox = .load image :: rest → step s = .refused .loadNotUnloaded)

/-- Every instruction answers a next state from every state: none stops the machine (60_exceptions.md R203: an error is a next state
in `HALTED`, log 7). -/
def Obligations.EveryInstructionAnswersNext : Prop := ∀ (i : Instr) (s : State), ∃ t, exec i s = .next t

/-- The word placed by `withFetchWord` is the instruction the very next step runs (the model's own interface, log 2). -/
def Obligations.PlacedWordRunsNext : Prop :=
  ∀ (s : State) (i : Instr), s.mem.wf = true →
    step (s.withFetchWord 16 (encode i).toNat) =
      exec i { s.withFetchWord 16 (encode i).toNat with
        pc := BitVec.ofNat 16 (fetchSlot s) + 2, rand := Config.randomByte s.draws, draws := s.draws + 1 }

/-! ## The host's transitions -/

/-- The timer step: `DT` and `ST` go down by 1 each, floored at 0; nothing else is read or written (60_exceptions.md R215), and
that in every `STATUS`, which is the spec's own decision D25 (R217, log 23). -/
def Obligations.TimerStepCountsDown : Prop :=
  ∀ (s : State) (rest : List HostMove), s.inbox = .timerStep :: rest →
    ∃ t, step s = .next t ∧ t.dt.toNat = s.dt.toNat - 1 ∧ t.st.toNat = s.st.toNat - 1 ∧
      t = { s with dt := t.dt, st := t.st, inbox := rest }

/-- Byte `j` of the image goes to `MEM[0x200 + j]`, whatever the bytes are (20_memory.md R61); `pc` is 0x200, `STATUS` is `RUN`
and the load writes nothing else (70_reset_and_hazards.md R241, decision D28, log 25). -/
def Obligations.LoadPlacesImageAtEntry : Prop :=
  ∀ (s : State) (image : List Byte) (rest : List HostMove),
    s.status = .unloaded → s.mem.wf = true → s.inbox = .load image :: rest →
    0 < image.length → image.length ≤ 3584 →
    ∃ t, step s = .next t ∧ (∀ j, j < image.length → t.mem.read (0x200 + j) = image.getD j 0) ∧
      (∀ a, ¬(0x200 ≤ a ∧ a < 0x200 + image.length) → t.mem.read a = s.mem.read a) ∧
      t = { s with mem := t.mem, pc := 0x200, status := .run, inbox := rest }

/-- A load that is too large or empty: `LoadError` with its reason and length, `MEM` and `pc` unchanged (60_exceptions.md R205). -/
def Obligations.BadImageHaltsWithLoadError : Prop :=
  ∀ (s : State) (image : List Byte) (rest : List HostMove),
    s.status = .unloaded → s.inbox = .load image :: rest →
    (3584 < image.length →
      step s = .next { s with status := .halted, inbox := rest, err := some { pcFetch := none, info := .loadError .tooLarge image.length } }) ∧
    (image.length = 0 →
      step s = .next { s with status := .halted, inbox := rest, err := some { pcFetch := none, info := .loadError .empty 0 } })

/-- Construction: the font of the parameter `FONT` at 0x050, zero everywhere else, in the canonical form
(70_reset_and_hazards.md R240; 20_memory.md R59, R60; font decision D15, log 19). -/
def Obligations.ConstructionPlacesFont : Prop :=
  ∀ (p : Params) (a : Nat),
    (construct p).mem.read a = (if 0x50 ≤ a ∧ a < 0xA0 then p.font.toList.getD (a - 0x50) 0 else 0) ∧
    (construct p).mem.wf = true ∧ (construct p).params = p

/-! ## Control transfer -/

/-- `1NNN` (40_control_flow.md R104). -/
def Obligations.JumpGoesToTarget : Prop :=
  ∀ (s : State) (nnn : Imm12),
    decode (wordNNN 0x1 nnn) = .ok (.jp nnn) ∧
    ∃ t, exec (.jp nnn) s = .next t ∧ t.pc.toNat = nnn.toNat ∧ t = { s with pc := t.pc }

/-- `2NNN`: the return address is pushed and control goes to `NNN`; on a full stack `StackOverflow` with the return address, the
stack unchanged and `pc` back at the fetch address; a return after the call goes to the instruction after it
(40_control_flow.md R105). -/
def Obligations.CallPushesReturnAddress : Prop :=
  ∀ (s : State) (nnn : Imm12),
    decode (wordNNN 0x2 nnn) = .ok (.call nnn) ∧
    (s.sp.val < 16 →
      ∃ t, exec (.call nnn) s = .next t ∧ t.pc.toNat = nnn.toNat ∧ t.sp.val = s.sp.val + 1 ∧
        (∀ j : Fin 16, t.stack[j] = if j.val = s.sp.val then s.pc else s.stack[j]) ∧
        t = { s with pc := t.pc, sp := t.sp, stack := t.stack } ∧
        ∀ q, exec .ret { t with pc := q } = .next { t with pc := s.pc, sp := s.sp }) ∧
    (s.sp.val = 16 →
      ∃ t, exec (.call nnn) s = .next t ∧ failedAt t (s.pc - 2) (.stackOverflow s.pc) ∧ t.stack = s.stack ∧
        t.sp = s.sp ∧ t.pc = s.pc - 2)

/-- `00EE`: the top entry goes into `pc`, unchecked; on an empty stack `StackUnderflow` (40_control_flow.md R103). -/
def Obligations.ReturnPopsIntoPc : Prop :=
  ∀ s : State,
    decode 0x00EE = .ok .ret ∧
    (∀ j : Fin 16, s.sp.val = j.val + 1 →
      ∃ t, exec .ret s = .next t ∧ t.pc = s.stack[j] ∧ t.sp.val = j.val ∧ t = { s with pc := t.pc, sp := t.sp }) ∧
    (s.sp.val = 0 → ∃ t, exec .ret s = .next t ∧ failedAt t (s.pc - 2) .stackUnderflow)

/-- A call on a full stack and a return on an empty one leave everything as it was before the cycle but `STATUS` and `ERR`. This
is the spec's own decision D5 (10_state.md R30, R31; 60_exceptions.md R203, log 7). -/
def Obligations.StackErrorsCommitNothing : Prop :=
  ∀ (s : State) (nnn : Imm12),
    (s.sp.val = 16 → exec (.call nnn) s = .next (haltedAt s (s.pc - 2) (.stackOverflow s.pc))) ∧
    (s.sp.val = 0 → exec .ret s = .next (haltedAt s (s.pc - 2) .stackUnderflow))

/-- Two cycles: a call to `NNN`, where a return stands, comes back to the instruction after the call with the stack depth, the
registers and the memory as they were (40_control_flow.md R105, its quoted property). -/
def Obligations.CallThenReturnComesBack : Prop :=
  ∀ (s : State) (nnn : Imm12), s.status = .run → s.inbox = [] → s.sp.val < 16 → s.pc.toNat + 1 < 4096 → nnn.toNat + 1 < 4096 →
    wordAt s s.pc.toNat = wordNNN 0x2 nnn → wordAt s nnn.toNat = 0x00EE →
    ∃ t, Sys2Proof.core.run 2 s = .next t ∧ t.pc = s.pc + 2 ∧ t.sp = s.sp ∧ t.v = s.v ∧ t.mem = s.mem ∧ t.i = s.i

/-- The skips on registers and bytes: `pc` goes 2 further exactly when the condition holds, and nothing else changes
(40_control_flow.md R107 to R110). -/
def Obligations.SkipsTestRegisters : Prop :=
  ∀ (s : State) (x y : Reg) (kk : Byte),
    (decode (wordXKK 0x3 x kk.toNat) = .ok (.seByte x kk) ∧
      exec (.seByte x kk) s = .next { s with pc := if s.reg x = kk then s.pc + 2 else s.pc }) ∧
    (decode (wordXKK 0x4 x kk.toNat) = .ok (.sneByte x kk) ∧
      exec (.sneByte x kk) s = .next { s with pc := if s.reg x = kk then s.pc else s.pc + 2 }) ∧
    (decode (wordXYN 0x5 x y 0) = .ok (.seReg x y) ∧
      exec (.seReg x y) s = .next { s with pc := if s.reg x = s.reg y then s.pc + 2 else s.pc }) ∧
    (decode (wordXYN 0x9 x y 0) = .ok (.sneReg x y) ∧
      exec (.sneReg x y) s = .next { s with pc := if s.reg x = s.reg y then s.pc else s.pc + 2 })

/-- `BNNN`, its word with any `NNN` (30_encoding.md R79), adds `V0` and is reduced by neither 4096 nor, as it never reaches it,
2^16 (40_control_flow.md R111; decision D2, log 8). -/
def Obligations.IndexedJumpAddsV0 : Prop :=
  ∀ (s : State) (nnn : Imm12),
    decode (wordNNN 0xB nnn) = .ok (.jpV0 nnn) ∧
    ∃ t, exec (.jpV0 nnn) s = .next t ∧ t.pc.toNat = nnn.toNat + (s.reg 0).toNat ∧ t.pc.toNat ≤ 0x10FE ∧
      t = { s with pc := t.pc }

/-! ## Register loads and the ALU -/

/-- `6XKK`, `7XKK` and `8XY0`: the new value, no flag, no other register (41_alu.md R122, R123, R124). -/
def Obligations.LoadsAndAddImmediate : Prop :=
  ∀ (s : State) (x y : Reg) (kk : Byte),
    (decode (wordXKK 0x6 x kk.toNat) = .ok (.ldByte x kk) ∧
      ∃ t, exec (.ldByte x kk) s = .next t ∧ t.reg x = kk ∧ regsKeptBut [x] s t ∧ t = { s with v := t.v }) ∧
    (decode (wordXKK 0x7 x kk.toNat) = .ok (.addByte x kk) ∧
      ∃ t, exec (.addByte x kk) s = .next t ∧ (t.reg x).toNat = ((s.reg x).toNat + kk.toNat) % 256 ∧
        regsKeptBut [x] s t ∧ t = { s with v := t.v }) ∧
    (decode (wordXYN 0x8 x y 0) = .ok (.ldReg x y) ∧
      ∃ t, exec (.ldReg x y) s = .next t ∧ t.reg x = s.reg y ∧ regsKeptBut [x] s t ∧ t = { s with v := t.v })

/-- `8XY1`, `8XY2`, `8XY3`, each with its code (30_encoding.md R81, decision D7, log 12), bit by bit; `VF` is not written as a flag
(41_alu.md R125 to R127; log 27). -/
def Obligations.LogicOperationsBitwise : Prop :=
  ∀ (s : State) (x y : Reg),
    (decode (wordXYN 0x8 x y 1) = .ok (.orReg x y) ∧
      ∃ t, exec (.orReg x y) s = .next t ∧
      (∀ b, (t.reg x).getLsbD b = ((s.reg x).getLsbD b || (s.reg y).getLsbD b)) ∧
      regsKeptBut [x] s t ∧ t = { s with v := t.v }) ∧
    (decode (wordXYN 0x8 x y 2) = .ok (.andReg x y) ∧
      ∃ t, exec (.andReg x y) s = .next t ∧
      (∀ b, (t.reg x).getLsbD b = ((s.reg x).getLsbD b && (s.reg y).getLsbD b)) ∧
      regsKeptBut [x] s t ∧ t = { s with v := t.v }) ∧
    (decode (wordXYN 0x8 x y 3) = .ok (.xorReg x y) ∧
      ∃ t, exec (.xorReg x y) s = .next t ∧
      (∀ b, (t.reg x).getLsbD b = ((s.reg x).getLsbD b ^^ (s.reg y).getLsbD b)) ∧
      regsKeptBut [x] s t ∧ t = { s with v := t.v })

/-- `8XY4`: the sum modulo 256 and then the carry in `VF`, which wins when the destination is `VF` (41_alu.md R128). -/
def Obligations.AddSetsCarry : Prop :=
  ∀ (s : State) (x y : Reg),
    decode (wordXYN 0x8 x y 4) = .ok (.addReg x y) ∧
    ∃ t, exec (.addReg x y) s = .next t ∧
      (x ≠ 15 → (t.reg x).toNat = ((s.reg x).toNat + (s.reg y).toNat) % 256) ∧
      (t.reg 15).toNat = (if 255 < (s.reg x).toNat + (s.reg y).toNat then 1 else 0) ∧
      regsKeptBut [x, 15] s t ∧ t = { s with v := t.v }

/-- `8XY5` and `8XY7`, each with its code (30_encoding.md R81, decision D7, log 12): the difference modulo 256 and the flag, under
both settings of `P_SUB_VF` (41_alu.md R129, R131; decision D8, log 13). -/
def Obligations.SubtractionsSetFlag : Prop :=
  ∀ (s : State) (x y : Reg),
    (decode (wordXYN 0x8 x y 5) = .ok (.subReg x y) ∧
      ∃ t, exec (.subReg x y) s = .next t ∧
      (x ≠ 15 → (t.reg x).toNat = ((s.reg x).toNat + 256 - (s.reg y).toNat) % 256) ∧
      (s.params.subVf = .notBorrow → (t.reg 15).toNat = if (s.reg y).toNat ≤ (s.reg x).toNat then 1 else 0) ∧
      (s.params.subVf = .borrow → (t.reg 15).toNat = if (s.reg y).toNat ≤ (s.reg x).toNat then 0 else 1) ∧
      regsKeptBut [x, 15] s t ∧ t = { s with v := t.v }) ∧
    (decode (wordXYN 0x8 x y 7) = .ok (.subnReg x y) ∧
      ∃ t, exec (.subnReg x y) s = .next t ∧
      (x ≠ 15 → (t.reg x).toNat = ((s.reg y).toNat + 256 - (s.reg x).toNat) % 256) ∧
      (s.params.subVf = .notBorrow → (t.reg 15).toNat = if (s.reg x).toNat ≤ (s.reg y).toNat then 1 else 0) ∧
      (s.params.subVf = .borrow → (t.reg 15).toNat = if (s.reg x).toNat ≤ (s.reg y).toNat then 0 else 1) ∧
      regsKeptBut [x, 15] s t ∧ t = { s with v := t.v })

/-- `8XY6` and `8XYE`, each with its code (30_encoding.md R81, decision D7, log 12): half or double of the shifted register and
the bit shifted out, under both settings of `P_SHIFT_SRC` (41_alu.md R130, R132; decision D9, log 14). -/
def Obligations.ShiftsCaptureBit : Prop :=
  ∀ (s : State) (x y : Reg) (src : Byte),
    src = (if s.params.shiftSrc = .vx then s.reg x else s.reg y) →
    (decode (wordXYN 0x8 x y 6) = .ok (.shrReg x y) ∧
      ∃ t, exec (.shrReg x y) s = .next t ∧
      (x ≠ 15 → (t.reg x).toNat = src.toNat / 2) ∧ (t.reg 15).toNat = src.toNat % 2 ∧
      regsKeptBut [x, 15] s t ∧ t = { s with v := t.v }) ∧
    (decode (wordXYN 0x8 x y 0xE) = .ok (.shlReg x y) ∧
      ∃ t, exec (.shlReg x y) s = .next t ∧
      (x ≠ 15 → (t.reg x).toNat = src.toNat * 2 % 256) ∧ (t.reg 15).toNat = src.toNat / 128 ∧
      regsKeptBut [x, 15] s t ∧ t = { s with v := t.v })

/-- `CXKK`, by its word (30_encoding.md R79): the cycle's byte masked by `KK`, for every byte; in a cycle with none queued that
byte is a fresh free value (41_alu.md R133; decision D14, log 3). -/
def Obligations.RandomByteIsMasked : Prop :=
  ∀ (s : State) (x : Reg) (kk : Byte),
    (decode (wordXKK 0xC x kk.toNat) = .ok (.rnd x kk) ∧
      ∃ t, exec (.rnd x kk) s = .next t ∧ (∀ b, (t.reg x).getLsbD b = (s.rand.getLsbD b && kk.getLsbD b)) ∧
      regsKeptBut [x] s t ∧ t = { s with v := t.v }) ∧
    (s.status = .run → s.inbox = [] → s.pc.toNat + 1 < 4096 → wordAt s s.pc.toNat = wordXKK 0xC x kk.toNat →
      ∃ t, step s = .next t ∧ t.reg x = (Config.randomByte s.draws &&& kk) ∧ t.draws = s.draws + 1)

/-! ## Index register and memory blocks -/

/-- `ANNN` (42_index_memory.md R150). -/
def Obligations.LoadIndexImmediate : Prop :=
  ∀ (s : State) (nnn : Imm12),
    decode (wordNNN 0xA nnn) = .ok (.ldI nnn) ∧
    ∃ t, exec (.ldI nnn) s = .next t ∧ t.i.toNat = nnn.toNat ∧ t = { s with i := t.i }

/-- `FX1E`, by its word (30_encoding.md R79): the sum modulo 2^16, and `VF` only under `OVERFLOW_FFF` (42_index_memory.md R151;
decision D10, log 15). -/
def Obligations.AddToIndex : Prop :=
  ∀ (s : State) (x : Reg),
    decode (wordXKK 0xF x 0x1E) = .ok (.addIVx x) ∧
    ∃ t, exec (.addIVx x) s = .next t ∧ t.i.toNat = (s.i.toNat + (s.reg x).toNat) % 65536 ∧
      (s.params.fx1eVf = .unchanged → t = { s with i := t.i }) ∧
      (s.params.fx1eVf = .overflowFFF →
        (t.reg 15).toNat = (if 0xFFF < s.i.toNat + (s.reg x).toNat then 1 else 0) ∧
        regsKeptBut [15] s t ∧ t = { s with i := t.i, v := t.v })

/-- `FX29`, by its word (30_encoding.md R79): the address of the glyph of the low nibble, with the glyph size of the parameters;
with the size 5 of 00_scope.md R9 it is 0x050 to 0x09B (42_index_memory.md R152; decision D15, log 19). -/
def Obligations.GlyphAddressOfLowNibble : Prop :=
  ∀ (s : State) (x : Reg),
    decode (wordXKK 0xF x 0x29) = .ok (.ldFVx x) ∧
    ∃ t, exec (.ldFVx x) s = .next t ∧ t = { s with i := t.i } ∧
      t.i.toNat = (0x50 + s.params.fontGlyphBytes * ((s.reg x).toNat % 16)) % 65536 ∧
      (s.params.fontGlyphBytes = 5 → t.i.toNat = 0x50 + 5 * ((s.reg x).toNat % 16) ∧ t.i.toNat ≤ 0x9B)

/-- `FX33`, by its word (30_encoding.md R79): three digits, each 0 to 9, hundreds at `I`, that make up the byte; every other
address as before (42_index_memory.md R154, R155; decision D16, log 20). -/
def Obligations.BcdStoresThreeDigits : Prop :=
  ∀ (s : State) (x : Reg),
    decode (wordXKK 0xF x 0x33) = .ok (.ldBVx x) ∧
    (s.mem.wf = true → s.i.toNat + 2 < 4096 →
      ∃ t, exec (.ldBVx x) s = .next t ∧
        100 * (t.mem.read s.i.toNat).toNat + 10 * (t.mem.read (s.i.toNat + 1)).toNat +
          (t.mem.read (s.i.toNat + 2)).toNat = (s.reg x).toNat ∧
        (t.mem.read s.i.toNat).toNat ≤ 2 ∧ (t.mem.read (s.i.toNat + 1)).toNat ≤ 9 ∧
        (t.mem.read (s.i.toNat + 2)).toNat ≤ 9 ∧
        (∀ a, ¬(s.i.toNat ≤ a ∧ a < s.i.toNat + 3) → t.mem.read a = s.mem.read a) ∧ t = { s with mem := t.mem })

/-- `FX55`, by its word (30_encoding.md R79): `V0` to `VX` at `I` upwards, `I` by `P_LDST_I`, every other address as before
(42_index_memory.md R156, R157; decision D11, log 16). -/
def Obligations.BlockStoreWritesRegisters : Prop :=
  ∀ (s : State) (x : Reg),
    decode (wordXKK 0xF x 0x55) = .ok (.storeRegs x) ∧
    (s.mem.wf = true → s.i.toNat + x.val < 4096 →
      ∃ t, exec (.storeRegs x) s = .next t ∧
        (∀ k : Reg, k ≤ x → t.mem.read (s.i.toNat + k.val) = s.reg k) ∧
        (∀ a, ¬(s.i.toNat ≤ a ∧ a ≤ s.i.toNat + x.val) → t.mem.read a = s.mem.read a) ∧
        t.i.toNat = (match s.params.ldstI with
          | .unchanged => s.i.toNat
          | .incXPlus1 => s.i.toNat + x.val + 1
          | .incX => s.i.toNat + x.val) ∧
        t = { s with mem := t.mem, i := t.i })

/-- `FX65`, by its word (30_encoding.md R79): `V0` to `VX` from `I` upwards, the registers above `X` unchanged, `I` by `P_LDST_I`
(42_index_memory.md R158, R157; decision D11, log 16). -/
def Obligations.BlockLoadReadsRegisters : Prop :=
  ∀ (s : State) (x : Reg),
    decode (wordXKK 0xF x 0x65) = .ok (.loadRegs x) ∧
    (s.i.toNat + x.val < 4096 →
      ∃ t, exec (.loadRegs x) s = .next t ∧
        (∀ k : Reg, t.reg k = if k ≤ x then s.mem.read (s.i.toNat + k.val) else s.reg k) ∧
        t.i.toNat = (match s.params.ldstI with
          | .unchanged => s.i.toNat
          | .incXPlus1 => s.i.toNat + x.val + 1
          | .incX => s.i.toNat + x.val) ∧
        t = { s with v := t.v, i := t.i })

/-- An access of several bytes with one of them out of `[0, 4096)` is `InvariantViolation(MEM_BOUNDS)` with the lowest such
address, and nothing else (20_memory.md R53, R56; decisions D4, D5, log 10). -/
def Obligations.OutOfRangeAccessHalts : Prop :=
  ∀ (s : State) (i : Instr) (n : Nat),
    ((∃ x, i = .ldBVx x ∧ n = 3) ∨ (∃ x, i = .storeRegs x ∧ n = x.val + 1) ∨ (∃ x, i = .loadRegs x ∧ n = x.val + 1) ∨
      (∃ x y k, i = .drw x y k ∧ n = k.val ∧ k ≠ 0)) →
    4096 < s.i.toNat + n →
    exec i s = .next (haltedAt s (s.pc - 2) (.invariantViolation .memBounds (max s.i.toNat 4096)))

/-- A store by `FX55` or `FX33` is what the next cycle fetches, whichever of the two bytes of the next word it covers: both, the
first, the second or none (20_memory.md R67; 70_reset_and_hazards.md R249; decision D23, log 22; digits D16, log 20). -/
def Obligations.NextFetchSeesBlockStore : Prop :=
  ∀ (s : State) (x : Reg), s.mem.wf = true → s.pc.toNat + 1 < 4096 →
    (s.i.toNat + x.val < 4096 →
      ∃ t w, exec (.storeRegs x) s = .next t ∧ t.pc = s.pc ∧ fetchAt t.mem t.pc = some w ∧
        w.toNat =
          overlaid s (x.val + 1) (fun k => (s.reg (Fin.ofNat 16 k)).toNat) s.pc.toNat * 256 +
            overlaid s (x.val + 1) (fun k => (s.reg (Fin.ofNat 16 k)).toNat) (s.pc.toNat + 1)) ∧
    (s.i.toNat + 2 < 4096 →
      ∃ t w, exec (.ldBVx x) s = .next t ∧ t.pc = s.pc ∧ fetchAt t.mem t.pc = some w ∧
        w.toNat =
          overlaid s 3 (fun k => (s.reg x).toNat / 10 ^ (2 - k) % 10) s.pc.toNat * 256 +
            overlaid s 3 (fun k => (s.reg x).toNat / 10 ^ (2 - k) % 10) (s.pc.toNat + 1))

/-! ## The framebuffer -/

/-- `00E0`: every pixel 0, and an all-zero snapshot at once; `VF` and all else unchanged (43_display.md R170). -/
def Obligations.ClearScreenClearsEveryPixel : Prop :=
  ∀ s : State, decode 0x00E0 = .ok .cls ∧
    ∃ t, exec .cls s = .next t ∧ (∀ p, t.fb.pixel p = false) ∧ t.snapshot = List.replicate 2048 0 ∧
      t = { s with fb := t.fb }

/-- `DXYN`: exactly the pixels under the sprite's set bits are toggled, wrapped at both edges; `VF` is 1 exactly when one of them
was set (43_display.md R171, R172, R173). With `N = 0` no pixel and no address is touched (R175, log 29), and with an address out
of range it is `MEM_BOUNDS` before any pixel changes (20_memory.md R56, decisions D4 and D5, log 10). -/
def Obligations.DrawTogglesSpritePixels : Prop :=
  ∀ (s : State) (x y : Reg) (n : Fin 16),
    decode (wordXYN 0xD x y n.val) = .ok (.drw x y n) ∧
    (n = 0 ∨ s.i.toNat + n.val ≤ 4096 →
      ∃ t, exec (.drw x y n) s = .next t ∧
        (∀ p, touches s (s.reg x) (s.reg y) n.val p → t.fb.pixel p = !s.fb.pixel p) ∧
        (∀ p, ¬touches s (s.reg x) (s.reg y) n.val p → t.fb.pixel p = s.fb.pixel p) ∧
        ((∃ p, touches s (s.reg x) (s.reg y) n.val p ∧ s.fb.pixel p = true) → t.reg 15 = 1) ∧
        ((¬∃ p, touches s (s.reg x) (s.reg y) n.val p ∧ s.fb.pixel p = true) → t.reg 15 = 0) ∧
        regsKeptBut [15] s t ∧ t = { s with fb := t.fb, v := t.v }) ∧
    (n ≠ 0 → 4096 < s.i.toNat + n.val →
      ∃ t, exec (.drw x y n) s = .next t ∧
        failedAt t (s.pc - 2) (.invariantViolation .memBounds (max s.i.toNat 4096)) ∧ t.fb = s.fb)

/-- Drawing the same sprite twice at the same place restores the framebuffer, and the second collision flag is 1 exactly when
some touched pixel was 0 before the first draw (43_display.md R176; 90_conflicts.md C9). -/
def Obligations.DrawTwiceRestores : Prop :=
  ∀ (s t u : State) (x y : Reg) (n : Fin 16), x ≠ 15 → y ≠ 15 → n = 0 ∨ s.i.toNat + n.val ≤ 4096 →
    exec (.drw x y n) s = .next t → exec (.drw x y n) t = .next u →
    u.fb = s.fb ∧ (u.reg 15 = 0 ∨ u.reg 15 = 1) ∧
      (u.reg 15 = 1 ↔ ∃ p, touches s (s.reg x) (s.reg y) n.val p ∧ s.fb.pixel p = false)

/-- The snapshot: 2048 bytes, row-major, pixel `(x, y)` at index `y*64 + x` (10_state.md R35; 43_display.md R177). -/
def Obligations.SnapshotIsRowMajor : Prop :=
  ∀ s : State, s.snapshot.length = 2048 ∧
    ∀ p : Pixel, s.snapshot.getD (p.2.val * 64 + p.1.val) 2 = if s.fb.pixel p then 1 else 0

/-! ## Keys and timers -/

/-- `EX9E` and `EXA1`, by their words (30_encoding.md R79): with a key number 0 to 15 the skip tests that key; above, `KEY_INDEX`
or the low nibble by `P_KEY_INDEX` (44_timers_keys.md R180 to R182; decision D12, log 17). -/
def Obligations.KeySkipsTestKey : Prop :=
  ∀ (s : State) (x : Reg) (k : Nat),
    decode (wordXKK 0xE x 0x9E) = .ok (.skp x) ∧ decode (wordXKK 0xE x 0xA1) = .ok (.sknp x) ∧
    (((s.reg x).toNat < 16 ∧ k = (s.reg x).toNat) ∨ (s.params.keyIndex = .lowNibble ∧ k = (s.reg x).toNat % 16) →
      exec (.skp x) s = .next { s with pc := if s.keys.getLsbD k = true then s.pc + 2 else s.pc } ∧
      exec (.sknp x) s = .next { s with pc := if s.keys.getLsbD k = true then s.pc else s.pc + 2 }) ∧
    (16 ≤ (s.reg x).toNat → s.params.keyIndex = .fault →
      exec (.skp x) s = .next (haltedAt s (s.pc - 2) (.invariantViolation .keyIndex (s.reg x).toNat)) ∧
      exec (.sknp x) s = .next (haltedAt s (s.pc - 2) (.invariantViolation .keyIndex (s.reg x).toNat)))

/-- `FX07`, `FX15`, `FX18`: the timers read and written; `sound_active` follows `ST` at once, and the next timer step starts from
the written value (44_timers_keys.md R183, R188, R189). -/
def Obligations.TimerReadsAndWrites : Prop :=
  ∀ (s : State) (x : Reg),
    (decode (wordXKK 0xF x 0x07) = .ok (.ldVxDT x) ∧
      ∃ t, exec (.ldVxDT x) s = .next t ∧ t.reg x = s.dt ∧ regsKeptBut [x] s t ∧ t = { s with v := t.v }) ∧
    (decode (wordXKK 0xF x 0x15) = .ok (.ldDTVx x) ∧
      ∃ t, exec (.ldDTVx x) s = .next t ∧ t.dt = s.reg x ∧ t = { s with dt := t.dt } ∧
        (timerStep t).dt.toNat = (s.reg x).toNat - 1) ∧
    (decode (wordXKK 0xF x 0x18) = .ok (.ldSTVx x) ∧
      ∃ t, exec (.ldSTVx x) s = .next t ∧ t.st = s.reg x ∧ t = { s with st := t.st } ∧
        (t.soundActive = true ↔ 0 < (s.reg x).toNat) ∧
        ((s.reg x).toNat = 1 → (timerStep t).soundActive = false))

/-- `FX0A`, by its word (30_encoding.md R79), with a key that completes the wait: the lowest such key, the wait state cleared,
`pc` at the following instruction (44_timers_keys.md R185, R186; decision D13, log 18). -/
def Obligations.KeyWaitCompletesWithLowestKey : Prop :=
  ∀ (s : State) (x : Reg) (k : Nat),
    decode (wordXKK 0xF x 0x0A) = .ok (.ldVxK x) ∧
    (k < 16 → keyIsNew s k → (∀ j, j < k → ¬keyIsNew s j) →
      ∃ t, exec (.ldVxK x) s = .next t ∧ (t.reg x).toNat = k ∧ regsKeptBut [x] s t ∧
        t = { s with v := t.v, kwActive := false, kwMask := 0 })

/-- `FX0A`, by its word (30_encoding.md R79), with no key that completes it: the sample is kept and `pc` goes back to the `FX0A`;
nothing else changes (44_timers_keys.md R184, R185; 60_exceptions.md R226; decision D13, log 18). -/
def Obligations.KeyWaitReenters : Prop :=
  ∀ (s : State) (x : Reg),
    decode (wordXKK 0xF x 0x0A) = .ok (.ldVxK x) ∧
    ((∀ k, k < 16 → ¬keyIsNew s k) →
      exec (.ldVxK x) s = .next { s with kwActive := true, kwMask := s.keys, pc := s.pc - 2 })

/-- Two cycles of a key wait: the first, with no key pressed, leaves `pc` at the `FX0A`; the second, with keys pressed, stores the
lowest one and goes on at the following instruction (44_timers_keys.md R184, R185; decision D13, log 18). -/
def Obligations.KeyWaitSuspendsThenResumes : Prop :=
  ∀ (s : State) (x : Reg) (keys : KeyState) (r q : Byte) (rest : List HostMove) (k : Nat),
    s.status = .run → s.pc.toNat + 1 < 4096 → wordAt s s.pc.toNat = wordXKK 0xF x 0x0A →
    s.params.keyTrigger = .pressEdge → s.kwActive = false → s.inbox = .cycle 0 r :: .cycle keys q :: rest →
    k < 16 → keys.getLsbD k = true → (∀ j, j < k → keys.getLsbD j = false) →
    ∃ t u, step s = .next t ∧ t.pc = s.pc ∧ t.v = s.v ∧ t.kwActive = true ∧
      step t = .next u ∧ u.pc = s.pc + 2 ∧ (u.reg x).toNat = k ∧ u.kwActive = false ∧ u.inbox = rest

/-! ## Whole-machine rules -/

/-- `VF` changes only by its writers: as a flag, or as a plain destination when `X = F` (10_state.md R23, derived there). -/
def Obligations.OnlyListedInstructionsWriteVF : Prop :=
  ∀ (i : Instr) (s t : State), exec i s = .next t → t.reg 15 ≠ s.reg 15 →
    (∃ x y, i = .addReg x y ∨ i = .subReg x y ∨ i = .subnReg x y ∨ i = .shrReg x y ∨ i = .shlReg x y ∨
      ∃ n, i = .drw x y n) ∨
    (∃ x, i = .addIVx x ∧ s.params.fx1eVf = .overflowFFF) ∨
    (∃ kk, i = .ldByte 15 kk ∨ i = .addByte 15 kk ∨ i = .rnd 15 kk) ∨
    (∃ y, i = .ldReg 15 y ∨ i = .orReg 15 y ∨ i = .andReg 15 y ∨ i = .xorReg 15 y) ∨
    i = .ldVxDT 15 ∨ i = .ldVxK 15 ∨ i = .loadRegs 15

/-- Each piece of state has only the writers the spec lists (10_state.md R28, R29, R33, R35, R36, R38; 20_memory.md R55). -/
def Obligations.OnlyListedInstructionsWriteState : Prop :=
  ∀ (i : Instr) (s t : State), exec i s = .next t →
    (t.mem ≠ s.mem → (∃ x, i = .ldBVx x) ∨ ∃ x, i = .storeRegs x) ∧
    (t.i ≠ s.i → (∃ nnn, i = .ldI nnn) ∨ (∃ x, i = .addIVx x) ∨ (∃ x, i = .ldFVx x) ∨
      (s.params.ldstI ≠ .unchanged ∧ ∃ x, i = .storeRegs x ∨ i = .loadRegs x)) ∧
    (t.sp ≠ s.sp ∨ t.stack ≠ s.stack → (∃ nnn, i = .call nnn) ∨ i = .ret) ∧
    (t.dt ≠ s.dt → ∃ x, i = .ldDTVx x) ∧
    (t.st ≠ s.st → ∃ x, i = .ldSTVx x) ∧
    (t.fb ≠ s.fb → i = .cls ∨ ∃ x y n, i = .drw x y n) ∧
    (t.kwActive ≠ s.kwActive ∨ t.kwMask ≠ s.kwMask → ∃ x, i = .ldVxK x) ∧
    t.keys = s.keys ∧ t.rand = s.rand ∧ t.draws = s.draws ∧ t.params = s.params ∧ t.inbox = s.inbox

/-- No transition writes the parameters, and once `UNLOADED` is left only a cycle that runs one of the two storing instructions writes
memory: a load, a timer step or a key change never does (70_reset_and_hazards.md R243, derived there; log 6). -/
def Obligations.HostNeverWritesMemoryAfterLoad : Prop :=
  ∀ s t : State, step s = .next t →
    t.params = s.params ∧
    (s.status ≠ .unloaded → t.mem ≠ s.mem →
      running s ∧ s.pc.toNat + 1 < 4096 ∧
        ((∃ x, decode (wordAt s s.pc.toNat) = .ok (.ldBVx x)) ∨
          ∃ x, decode (wordAt s s.pc.toNat) = .ok (.storeRegs x)))

/-! ## Invariants -/

/-- Every invariant holds in the state after construction, whatever the parameters, and in `State.reset`. -/
def Obligations.ResetMeetsInvariants : Prop :=
  (State.reset.MemCanonical ∧ State.reset.ErrIffHalted ∧ State.reset.KeyWaitClear ∧ State.reset.PcBounded ∧
    State.reset.UntouchedBeforeLoad) ∧
  ∀ p, (construct p).MemCanonical ∧ (construct p).ErrIffHalted ∧ (construct p).KeyWaitClear ∧ (construct p).PcBounded ∧
    (construct p).UntouchedBeforeLoad

/-- Every step keeps the memory's canonical form, so no byte outside `[0, 4096)` is ever written (20_memory.md R53; log 26). -/
def Obligations.StepKeepsMemCanonical : Prop :=
  ∀ s t : State, s.MemCanonical → step s = .next t → t.MemCanonical

/-- Every step keeps `pc` at or below 0x10FE, with the return addresses in use at or below 0x1000 (10_state.md R27, decision D2,
log 8). -/
def Obligations.StepKeepsPcBounded : Prop :=
  ∀ s t : State, s.PcBounded → step s = .next t → t.PcBounded

/-- Every step keeps `ERR` filled exactly in `HALTED` (10_state.md R37, decision D17, log 7). -/
def Obligations.StepKeepsErrIffHalted : Prop :=
  ∀ s t : State, s.ErrIffHalted → step s = .next t → t.ErrIffHalted

/-- Every step keeps the wait mask clear while no key wait is pending (10_state.md R38, decision D13, log 18). -/
def Obligations.StepKeepsKeyWaitClear : Prop :=
  ∀ s t : State, s.KeyWaitClear → step s = .next t → t.KeyWaitClear

/-- Every step keeps the machine untouched while nothing is loaded (70_reset_and_hazards.md R240, R241). -/
def Obligations.StepKeepsUntouchedBeforeLoad : Prop :=
  ∀ s t : State, s.UntouchedBeforeLoad → step s = .next t → t.UntouchedBeforeLoad

/-! ## Construction and the key update -/

/-- Construction: `STATUS` is `UNLOADED`, `ERR` empty, `pc` 0x200, the stack empty and no key wait pending for all parameters, and
under `P_RESET_REGS = ZERO` every register, `I`, both timers and every pixel are 0. All but `pc` is the spec's own decision D17
(70_reset_and_hazards.md R240; 10_state.md R41; log 4). -/
def Obligations.ConstructionSetsResetValues : Prop :=
  ∀ p : Params,
    (construct p).status = .unloaded ∧ (construct p).err = none ∧ (construct p).pc = 0x200 ∧ (construct p).sp = 0 ∧
    (∀ j : Fin 16, (construct p).stack[j] = 0) ∧ (construct p).kwActive = false ∧ (construct p).kwMask = 0 ∧
    (p.resetRegs = .zero →
      (∀ r, (construct p).reg r = 0) ∧ (construct p).i = 0 ∧ (construct p).dt = 0 ∧ (construct p).st = 0 ∧
        ∀ q, (construct p).fb.pixel q = false) ∧
    construct Params.default = State.reset

/-- The host's key update: the keys become the ones the host gives and nothing else changes (00_scope.md R16; 60_exceptions.md
R223; 10_state.md R36), and the very next cycle of the driver tests them. That it has a step in every `STATUS` is the model's
reading of R223 (DEDUCED, log 23). -/
def Obligations.KeyUpdateSetsKeysOnly : Prop :=
  ∀ (s : State) (k : KeyState) (rest : List HostMove), s.inbox = .setKeys k :: rest →
    ∃ t, step s = .next t ∧ (∀ j, j < 16 → t.keyPressed j = k.getLsbD j) ∧ t = { s with keys := k, inbox := rest } ∧
      ∀ x, s.status = .run → rest = [] → s.pc.toNat + 1 < 4096 → wordAt s s.pc.toNat = wordXKK 0xE x 0x9E →
        (s.reg x).toNat < 16 →
        ∃ u, step t = .next u ∧ (u.pc = s.pc + 4 ↔ k.getLsbD (s.reg x).toNat = true)
end

