-- ==== Sys2Proof/Laws/Decode.lean ====
section
/-! SUPPORT. The fields of a packed word, a word's two bytes, and the numeric reading of the fields. -/

namespace Sys2Proof

/-! The fields as numbers. -/

theorem opField_toNat (w : Word) : (opField w).toNat = w.toNat / 4096 % 16 := by
  simp [opField, BitVec.extractLsb'_toNat, Nat.shiftRight_eq_div_pow]

theorem xField_val (w : Word) : (xField w).val = w.toNat / 256 % 16 := by
  change (w.extractLsb' 8 4).toNat = _
  simp [BitVec.extractLsb'_toNat, Nat.shiftRight_eq_div_pow]

theorem yField_val (w : Word) : (yField w).val = w.toNat / 16 % 16 := by
  change (w.extractLsb' 4 4).toNat = _
  simp [BitVec.extractLsb'_toNat, Nat.shiftRight_eq_div_pow]

theorem nField_toNat (w : Word) : (nField w).toNat = w.toNat % 16 := by
  simp [nField, BitVec.extractLsb'_toNat]

theorem kkField_toNat (w : Word) : (kkField w).toNat = w.toNat % 256 := by
  simp [kkField, BitVec.extractLsb'_toNat]

theorem nnnField_toNat (w : Word) : (nnnField w).toNat = w.toNat % 4096 := by
  simp [nnnField, BitVec.extractLsb'_toNat]

/-! The packed words as numbers. -/

theorem packNNN_toNat (op : BitVec 4) (nnn : Imm12) : (packNNN op nnn).toNat = op.toNat * 4096 + nnn.toNat := by
  have := nnn.isLt
  simp only [packNNN, BitVec.toNat_append]
  rw [← Nat.shiftLeft_add_eq_or_of_lt this, Nat.shiftLeft_eq]

theorem packXKK_toNat (op : BitVec 4) (x : Reg) (kk : Byte) :
    (packXKK op x kk).toNat = op.toNat * 4096 + x.val * 256 + kk.toNat := by
  have h1 := kk.isLt
  have h2 : (BitVec.ofFin (w := 4) x).toNat < 2 ^ 4 := (BitVec.ofFin (w := 4) x).isLt
  have h3 : (BitVec.ofFin (w := 4) x).toNat = x.val := rfl
  simp only [packXKK, BitVec.toNat_append]
  rw [← Nat.shiftLeft_add_eq_or_of_lt h1, ← Nat.shiftLeft_add_eq_or_of_lt h2, Nat.shiftLeft_eq, Nat.shiftLeft_eq, h3]
  omega

theorem packXYN_toNat (op : BitVec 4) (x y : Reg) (n : BitVec 4) :
    (packXYN op x y n).toNat = op.toNat * 4096 + x.val * 256 + y.val * 16 + n.toNat := by
  have h1 := n.isLt
  have h2 : (BitVec.ofFin (w := 4) x).toNat < 2 ^ 4 := (BitVec.ofFin (w := 4) x).isLt
  have h3 : (BitVec.ofFin (w := 4) x).toNat = x.val := rfl
  have h4 : (BitVec.ofFin (w := 4) y).toNat < 2 ^ 4 := (BitVec.ofFin (w := 4) y).isLt
  have h5 : (BitVec.ofFin (w := 4) y).toNat = y.val := rfl
  simp only [packXYN, BitVec.toNat_append]
  rw [← Nat.shiftLeft_add_eq_or_of_lt h1, ← Nat.shiftLeft_add_eq_or_of_lt h4, ← Nat.shiftLeft_add_eq_or_of_lt h2,
    Nat.shiftLeft_eq, Nat.shiftLeft_eq, Nat.shiftLeft_eq, h3, h5]
  omega

/-! The fields of the packed words. -/

section

variable (op n : BitVec 4) (x y : Reg) (kk : Byte) (nnn : Imm12)

@[simp] theorem opField_packNNN : opField (packNNN op nnn) = op := by
  apply BitVec.eq_of_toNat_eq; rw [opField_toNat, packNNN_toNat]; omega

@[simp] theorem nnnField_packNNN : nnnField (packNNN op nnn) = nnn := by
  apply BitVec.eq_of_toNat_eq; rw [nnnField_toNat, packNNN_toNat]; omega

@[simp] theorem opField_packXKK : opField (packXKK op x kk) = op := by
  apply BitVec.eq_of_toNat_eq; rw [opField_toNat, packXKK_toNat]; omega

@[simp] theorem xField_packXKK : xField (packXKK op x kk) = x := by
  apply Fin.ext; rw [xField_val, packXKK_toNat]; omega

@[simp] theorem kkField_packXKK : kkField (packXKK op x kk) = kk := by
  apply BitVec.eq_of_toNat_eq; rw [kkField_toNat, packXKK_toNat]; omega

@[simp] theorem opField_packXYN : opField (packXYN op x y n) = op := by
  apply BitVec.eq_of_toNat_eq; rw [opField_toNat, packXYN_toNat]; omega

@[simp] theorem xField_packXYN : xField (packXYN op x y n) = x := by
  apply Fin.ext; rw [xField_val, packXYN_toNat]; omega

@[simp] theorem yField_packXYN : yField (packXYN op x y n) = y := by
  apply Fin.ext; rw [yField_val, packXYN_toNat]; omega

@[simp] theorem nField_packXYN : nField (packXYN op x y n) = n := by
  apply BitVec.eq_of_toNat_eq; rw [nField_toNat, packXYN_toNat]; omega

/-! A packed word with a family other than 0 is none of the two words decoded before the families (30_encoding.md R78). -/

theorem decode_of_family {w : Word} (h : 0x1000 ≤ w.toNat) : decode w = decodeFamily w := by
  have h1 : w ≠ 0x00E0 := fun e => by rw [e] at h; exact absurd h (by decide)
  have h2 : w ≠ 0x00EE := fun e => by rw [e] at h; exact absurd h (by decide)
  rw [decode, if_neg h1, if_neg h2]

theorem decode_packNNN (hop : 1 ≤ op.toNat) : decode (packNNN op nnn) = decodeFamily (packNNN op nnn) :=
  decode_of_family (by rw [packNNN_toNat]; omega)

theorem decode_packXKK (hop : 1 ≤ op.toNat) : decode (packXKK op x kk) = decodeFamily (packXKK op x kk) :=
  decode_of_family (by rw [packXKK_toNat]; omega)

theorem decode_packXYN (hop : 1 ≤ op.toNat) : decode (packXYN op x y n) = decodeFamily (packXYN op x y n) :=
  decode_of_family (by rw [packXYN_toNat]; omega)

end

/-! A word as its fields, by the format. -/

theorem packNNN_fields (w : Word) : packNNN (opField w) (nnnField w) = w := by
  apply BitVec.eq_of_toNat_eq; rw [packNNN_toNat, opField_toNat, nnnField_toNat]; omega

theorem packXKK_fields (w : Word) : packXKK (opField w) (xField w) (kkField w) = w := by
  apply BitVec.eq_of_toNat_eq; rw [packXKK_toNat, opField_toNat, xField_val, kkField_toNat]; omega

theorem packXYN_fields (w : Word) : packXYN (opField w) (xField w) (yField w) (nField w) = w := by
  apply BitVec.eq_of_toNat_eq; rw [packXYN_toNat, opField_toNat, xField_val, yField_val, nField_toNat]; omega

/-! A word and its bytes in memory. -/

theorem composeWord_toNat (hi lo : Byte) : (composeWord hi lo).toNat = hi.toNat * 256 + lo.toNat := by
  have := lo.isLt
  simp only [composeWord, BitVec.toNat_append]
  rw [← Nat.shiftLeft_add_eq_or_of_lt this, Nat.shiftLeft_eq]

/-- The two bytes of a word compose to the word. -/
@[simp] theorem composeWord_bytes (w : Word) : composeWord (w.extractLsb' 8 8) (w.extractLsb' 0 8) = w := by
  apply BitVec.eq_of_toNat_eq
  rw [composeWord_toNat]
  simp only [BitVec.extractLsb'_toNat, Nat.shiftRight_eq_div_pow]
  omega

theorem decodeBytes_wordBytes (w : Word) (rest : List Byte) :
    decodeBytes (wordBytes w ++ rest) = (decode w).map fun i => (i, rest) := by
  simp only [wordBytes, decodeBytes, List.cons_append, List.nil_append, composeWord_bytes]
  cases decode w <;> rfl

/-- A word of 16 bits is its own table word. -/
@[simp] theorem tableWord_toNat (w : Word) : tableWord 16 w.toNat = w := by
  apply BitVec.eq_of_toNat_eq
  simp only [tableWord, BitVec.toNat_ofNat]
  have := w.isLt
  omega

/-! The bits of a packed word, and a word under the masks of the opcode table. -/

theorem packXYN_getLsbD (op n : BitVec 4) (x y : Reg) (i : Nat) :
    (packXYN op x y n).getLsbD i =
      if i < 4 then n.getLsbD i else if i < 8 then (BitVec.ofFin (w := 4) y).getLsbD (i - 4)
      else if i < 12 then (BitVec.ofFin (w := 4) x).getLsbD (i - 8) else op.getLsbD (i - 12) := by
  change BitVec.getLsbD (w := 4 + 4 + 4 + 4) (op ++ BitVec.ofFin (w := 4) x ++ BitVec.ofFin (w := 4) y ++ n) i = _
  simp only [BitVec.getLsbD_append]
  split_ifs <;> first | rfl | omega

theorem packXKK_getLsbD (op : BitVec 4) (x : Reg) (kk : Byte) (i : Nat) :
    (packXKK op x kk).getLsbD i =
      if i < 8 then kk.getLsbD i
      else if i < 12 then (BitVec.ofFin (w := 4) x).getLsbD (i - 8) else op.getLsbD (i - 12) := by
  change BitVec.getLsbD (w := 4 + 4 + 8) (op ++ BitVec.ofFin (w := 4) x ++ kk) i = _
  simp only [BitVec.getLsbD_append]
  split_ifs <;> first | rfl | omega

/-- The mask of the families selected by the high nibble alone. -/
theorem and_op (w : Word) : w &&& 0xF000 = packXYN (opField w) 0 0 0 := by
  apply BitVec.eq_of_getLsbD_eq
  intro i hi
  rw [packXYN_getLsbD, BitVec.getLsbD_and]
  simp only [opField, BitVec.getLsbD_extractLsb']
  interval_cases i <;> simp

/-- The mask of families 5, 8 and 9. -/
theorem and_xy (w : Word) : w &&& 0xF00F = packXYN (opField w) 0 0 (nField w) := by
  apply BitVec.eq_of_getLsbD_eq
  intro i hi
  rw [packXYN_getLsbD, BitVec.getLsbD_and]
  simp only [opField, nField, BitVec.getLsbD_extractLsb']
  interval_cases i <;> simp

/-- The mask of families E and F. -/
theorem and_kk (w : Word) : w &&& 0xF0FF = packXKK (opField w) 0 (kkField w) := by
  apply BitVec.eq_of_getLsbD_eq
  intro i hi
  rw [packXKK_getLsbD, BitVec.getLsbD_and]
  simp only [opField, kkField, BitVec.getLsbD_extractLsb']
  interval_cases i <;> simp

end Sys2Proof
end

