-- ==== Sys2Proof/Laws/Memory.lean ====
section
/-! SUPPORT. The laws of `MEM`: read after write, and every operation keeps the canonical form. -/

namespace Sys2Proof.Machine.Memory

@[simp] theorem read_nil (a : Nat) : read [] a = Config.resetByte a := rfl

/-- One step of the canonical form. -/
theorem wfFrom_cons {lo a : Nat} {b : Byte} {m : Memory} :
    wfFrom lo ((a, b) :: m) = true ↔
      lo ≤ a ∧ a < Config.memSize ∧ b ≠ Config.resetByte a ∧ wfFrom (a + 1) m = true := by
  simp only [wfFrom, Bool.and_eq_true, decide_eq_true_eq, bne_iff_ne, ne_eq, and_assoc]

/-- A canonical list above a bound is canonical above a lower one. -/
theorem wfFrom_mono {lo lo' : Nat} (h : lo' ≤ lo) : ∀ {m : Memory}, wfFrom lo m = true → wfFrom lo' m = true
  | [], _ => rfl
  | (a, b) :: m, hm => by
    rw [wfFrom_cons] at hm ⊢
    exact ⟨h.trans hm.1, hm.2⟩

/-- Below its bound a canonical list reads as the reset contents. -/
theorem read_of_wfFrom {lo a : Nat} (ha : a < lo) :
    ∀ {m : Memory}, wfFrom lo m = true → read m a = Config.resetByte a
  | [], _ => rfl
  | (c, d) :: m, hm => by
    obtain ⟨hlo, -, -, hrest⟩ := wfFrom_cons.1 hm
    have hne : c ≠ a := by omega
    simp only [read, hne, if_false]
    exact read_of_wfFrom (lo := c + 1) (by omega) hrest

theorem wfFrom_write {lo a : Nat} {b : Byte} (hlo : lo ≤ a) (ha : a < Config.memSize) :
    ∀ {m : Memory}, wfFrom lo m = true → wfFrom lo (write m a b) = true
  | [], _ => by
    simp only [write]
    split
    · rfl
    · next hb => exact wfFrom_cons.2 ⟨hlo, ha, hb, rfl⟩
  | (c, d) :: m, hm => by
    obtain ⟨hc, hcs, hd, hrest⟩ := wfFrom_cons.1 hm
    simp only [write]
    split
    · next hac =>
      split
      · exact hm
      · next hb => exact wfFrom_cons.2 ⟨hlo, ha, hb, wfFrom_cons.2 ⟨hac, hcs, hd, hrest⟩⟩
    · next hac =>
      split
      · next hca =>
        subst hca
        split
        · exact wfFrom_mono (by omega) hrest
        · next hb => exact wfFrom_cons.2 ⟨hlo, ha, hb, hrest⟩
      · next hca =>
        exact wfFrom_cons.2 ⟨hc, hcs, hd, wfFrom_write (lo := c + 1) (by omega) ha hrest⟩

/-- A write in range keeps the canonical form. -/
theorem wf_write {m : Memory} {a : Nat} {b : Byte} (hm : m.wf = true) (ha : a < Config.memSize) :
    (m.write a b).wf = true :=
  wfFrom_write (Nat.zero_le a) ha hm

theorem read_write_from {lo a : Nat} {b : Byte} (x : Nat) :
    ∀ {m : Memory}, wfFrom lo m = true → read (write m a b) x = if x = a then b else read m x
  | [], _ => by
    simp only [write]
    split
    · next hb => by_cases hx : x = a <;> simp [hx, hb, read]
    · by_cases hx : x = a
      · simp [hx, read]
      · have : a ≠ x := fun h => hx h.symm
        simp [hx, read, this]
  | (c, d) :: m, hm => by
    obtain ⟨-, -, -, hrest⟩ := wfFrom_cons.1 hm
    simp only [write]
    split
    · next hac =>
      split
      · next hb =>
        by_cases hx : x = a
        · have hr := read_of_wfFrom (a := x) (by omega) hrest
          have hcx : c ≠ x := by omega
          subst hx
          simp only [read, hcx, if_false, if_true, hb, hr]
        · simp [hx]
      · by_cases hx : x = a
        · simp [hx, read]
        · have : a ≠ x := fun h => hx h.symm
          simp [hx, read, this]
    · next hac =>
      split
      · next hca =>
        subst hca
        split
        · next hb =>
          by_cases hx : x = c
          · subst hx
            simp only [if_true, hb, read_of_wfFrom (Nat.lt_succ_self x) hrest]
          · have : c ≠ x := fun h => hx h.symm
            simp [hx, read, this]
        · by_cases hx : x = c
          · simp [hx, read]
          · have : c ≠ x := fun h => hx h.symm
            simp [hx, read, this]
      · next hca =>
        by_cases hcx : c = x
        · subst hcx
          simp [read, hca]
        · simp only [read, hcx, if_false]
          exact read_write_from x hrest

/-- Reading after writing one byte: the byte written there, the old byte everywhere else. -/
theorem read_write {m : Memory} {a : Nat} {b : Byte} (hm : m.wf = true) (x : Nat) :
    (m.write a b).read x = if x = a then b else m.read x :=
  read_write_from x hm

/-- Writing a block in range keeps the canonical form. -/
theorem wf_writeBytes : ∀ {bs : List Byte} {m : Memory} {a : Nat},
    m.wf = true → a + bs.length ≤ Config.memSize → (m.writeBytes a bs).wf = true
  | [], _, _, hm, _ => hm
  | b :: bs, m, a, hm, h => by
    simp only [List.length_cons] at h
    exact wf_writeBytes (bs := bs) (m := m.write a b) (a := a + 1) (wf_write hm (by omega)) (by omega)

/-- Reading after writing a block in range: the block's bytes inside it, the old bytes outside. -/
theorem read_writeBytes : ∀ {bs : List Byte} {m : Memory} {a : Nat},
    m.wf = true → a + bs.length ≤ Config.memSize → ∀ x,
      (m.writeBytes a bs).read x = if a ≤ x ∧ x < a + bs.length then bs.getD (x - a) 0 else m.read x
  | [], m, a, _, _, x => by
    have : ¬(a ≤ x ∧ x < a + 0) := by omega
    simp only [writeBytes, List.length_nil, this, if_false]
  | b :: bs, m, a, hm, h, x => by
    simp only [List.length_cons] at h
    simp only [writeBytes, List.length_cons]
    rw [read_writeBytes (wf_write hm (by omega)) (by omega) x, read_write hm x]
    by_cases hx : x = a
    · subst hx
      have h1 : ¬(x + 1 ≤ x ∧ x < x + 1 + bs.length) := by omega
      have h2 : x ≤ x ∧ x < x + (bs.length + 1) := by omega
      rw [if_neg h1, if_pos rfl, if_pos h2, Nat.sub_self]
      rfl
    · rw [if_neg hx]
      by_cases h3 : a + 1 ≤ x ∧ x < a + 1 + bs.length
      · have h4 : a ≤ x ∧ x < a + (bs.length + 1) := by omega
        have h5 : x - a = (x - (a + 1)) + 1 := by omega
        rw [if_pos h3, if_pos h4, h5]
        rfl
      · have h4 : ¬(a ≤ x ∧ x < a + (bs.length + 1)) := by omega
        rw [if_neg h3, if_neg h4]

/-- Canonical memories that read alike are equal. -/
theorem ext_from : ∀ {lo : Nat} {m m' : Memory}, wfFrom lo m = true → wfFrom lo m' = true →
    (∀ x, read m x = read m' x) → m = m'
  | _, [], [], _, _, _ => rfl
  | _, [], (c, d) :: m', _, hm', h => by
    have := h c
    simp [read, (wfFrom_cons.1 hm').2.2.1.symm] at this
  | _, (c, d) :: m, [], hm, _, h => by
    have := h c
    simp [read, (wfFrom_cons.1 hm).2.2.1] at this
  | lo, (c, d) :: m, (c', d') :: m', hm, hm', h => by
    obtain ⟨h1, -, h3, h4⟩ := wfFrom_cons.1 hm
    obtain ⟨h1', -, h3', h4'⟩ := wfFrom_cons.1 hm'
    have hc : c = c' := by
      rcases Nat.lt_trichotomy c c' with hlt | heq | hgt
      · have := h c
        have hne : c' ≠ c := by omega
        simp only [read, if_true, hne, if_false] at this
        exact absurd (this.trans (read_of_wfFrom (by omega) h4')) h3
      · exact heq
      · have := h c'
        have hne : c ≠ c' := by omega
        simp only [read, if_true, hne, if_false] at this
        exact absurd (this.symm.trans (read_of_wfFrom (by omega) h4)) h3'
    subst hc
    have hd : d = d' := by simpa [read] using h c
    subst hd
    have hrest : m = m' := ext_from h4 h4' fun x => by
      by_cases hx : c = x
      · subst hx
        rw [read_of_wfFrom (Nat.lt_succ_self c) h4, read_of_wfFrom (Nat.lt_succ_self c) h4']
      · simpa [read, hx] using h x
    rw [hrest]

/-- Equal memories are equal data. -/
theorem ext {m m' : Memory} (hm : m.wf = true) (hm' : m'.wf = true) (h : ∀ x, m.read x = m'.read x) : m = m' :=
  ext_from hm hm' h

end Sys2Proof.Machine.Memory
end

