-- ==== Sys2Proof/Laws/State.lean ====
section
/-! SUPPORT. One lemma per field per update, true by rfl, so that no later proof unfolds a record update. -/

namespace Sys2Proof.Machine.State

variable (s : State)

/-! `halt` -/

@[simp] theorem halt_mem (r : ErrorRecord) : (s.halt r).mem = s.mem := rfl
@[simp] theorem halt_v (r : ErrorRecord) : (s.halt r).v = s.v := rfl
@[simp] theorem halt_pc (r : ErrorRecord) : (s.halt r).pc = s.pc := rfl
@[simp] theorem halt_i (r : ErrorRecord) : (s.halt r).i = s.i := rfl
@[simp] theorem halt_stack (r : ErrorRecord) : (s.halt r).stack = s.stack := rfl
@[simp] theorem halt_sp (r : ErrorRecord) : (s.halt r).sp = s.sp := rfl
@[simp] theorem halt_dt (r : ErrorRecord) : (s.halt r).dt = s.dt := rfl
@[simp] theorem halt_st (r : ErrorRecord) : (s.halt r).st = s.st := rfl
@[simp] theorem halt_fb (r : ErrorRecord) : (s.halt r).fb = s.fb := rfl
@[simp] theorem halt_keys (r : ErrorRecord) : (s.halt r).keys = s.keys := rfl
@[simp] theorem halt_status (r : ErrorRecord) : (s.halt r).status = .halted := rfl
@[simp] theorem halt_err (r : ErrorRecord) : (s.halt r).err = some r := rfl
@[simp] theorem halt_kwActive (r : ErrorRecord) : (s.halt r).kwActive = s.kwActive := rfl
@[simp] theorem halt_kwMask (r : ErrorRecord) : (s.halt r).kwMask = s.kwMask := rfl
@[simp] theorem halt_rand (r : ErrorRecord) : (s.halt r).rand = s.rand := rfl
@[simp] theorem halt_draws (r : ErrorRecord) : (s.halt r).draws = s.draws := rfl
@[simp] theorem halt_params (r : ErrorRecord) : (s.halt r).params = s.params := rfl
@[simp] theorem halt_inbox (r : ErrorRecord) : (s.halt r).inbox = s.inbox := rfl

/-! `raise` -/

@[simp] theorem raise_mem (info : ErrorInfo) : (s.raise info).mem = s.mem := rfl
@[simp] theorem raise_v (info : ErrorInfo) : (s.raise info).v = s.v := rfl
@[simp] theorem raise_pc (info : ErrorInfo) : (s.raise info).pc = s.fetchAddr := rfl
@[simp] theorem raise_i (info : ErrorInfo) : (s.raise info).i = s.i := rfl
@[simp] theorem raise_stack (info : ErrorInfo) : (s.raise info).stack = s.stack := rfl
@[simp] theorem raise_sp (info : ErrorInfo) : (s.raise info).sp = s.sp := rfl
@[simp] theorem raise_dt (info : ErrorInfo) : (s.raise info).dt = s.dt := rfl
@[simp] theorem raise_st (info : ErrorInfo) : (s.raise info).st = s.st := rfl
@[simp] theorem raise_fb (info : ErrorInfo) : (s.raise info).fb = s.fb := rfl
@[simp] theorem raise_keys (info : ErrorInfo) : (s.raise info).keys = s.keys := rfl
@[simp] theorem raise_status (info : ErrorInfo) : (s.raise info).status = .halted := rfl
@[simp] theorem raise_err (info : ErrorInfo) : (s.raise info).err = some { pcFetch := some s.fetchAddr, info := info } := rfl
@[simp] theorem raise_kwActive (info : ErrorInfo) : (s.raise info).kwActive = s.kwActive := rfl
@[simp] theorem raise_kwMask (info : ErrorInfo) : (s.raise info).kwMask = s.kwMask := rfl
@[simp] theorem raise_rand (info : ErrorInfo) : (s.raise info).rand = s.rand := rfl
@[simp] theorem raise_draws (info : ErrorInfo) : (s.raise info).draws = s.draws := rfl
@[simp] theorem raise_params (info : ErrorInfo) : (s.raise info).params = s.params := rfl
@[simp] theorem raise_inbox (info : ErrorInfo) : (s.raise info).inbox = s.inbox := rfl

/-! `setReg` -/

@[simp] theorem setReg_mem (r : Reg) (b : Byte) : (s.setReg r b).mem = s.mem := rfl
@[simp] theorem setReg_v (r : Reg) (b : Byte) : (s.setReg r b).v = s.v.set r.val b r.isLt := rfl
@[simp] theorem setReg_pc (r : Reg) (b : Byte) : (s.setReg r b).pc = s.pc := rfl
@[simp] theorem setReg_i (r : Reg) (b : Byte) : (s.setReg r b).i = s.i := rfl
@[simp] theorem setReg_stack (r : Reg) (b : Byte) : (s.setReg r b).stack = s.stack := rfl
@[simp] theorem setReg_sp (r : Reg) (b : Byte) : (s.setReg r b).sp = s.sp := rfl
@[simp] theorem setReg_dt (r : Reg) (b : Byte) : (s.setReg r b).dt = s.dt := rfl
@[simp] theorem setReg_st (r : Reg) (b : Byte) : (s.setReg r b).st = s.st := rfl
@[simp] theorem setReg_fb (r : Reg) (b : Byte) : (s.setReg r b).fb = s.fb := rfl
@[simp] theorem setReg_keys (r : Reg) (b : Byte) : (s.setReg r b).keys = s.keys := rfl
@[simp] theorem setReg_status (r : Reg) (b : Byte) : (s.setReg r b).status = s.status := rfl
@[simp] theorem setReg_err (r : Reg) (b : Byte) : (s.setReg r b).err = s.err := rfl
@[simp] theorem setReg_kwActive (r : Reg) (b : Byte) : (s.setReg r b).kwActive = s.kwActive := rfl
@[simp] theorem setReg_kwMask (r : Reg) (b : Byte) : (s.setReg r b).kwMask = s.kwMask := rfl
@[simp] theorem setReg_rand (r : Reg) (b : Byte) : (s.setReg r b).rand = s.rand := rfl
@[simp] theorem setReg_draws (r : Reg) (b : Byte) : (s.setReg r b).draws = s.draws := rfl
@[simp] theorem setReg_params (r : Reg) (b : Byte) : (s.setReg r b).params = s.params := rfl
@[simp] theorem setReg_inbox (r : Reg) (b : Byte) : (s.setReg r b).inbox = s.inbox := rfl

/-! `setFlag` -/

@[simp] theorem setFlag_mem (f : Bool) : (s.setFlag f).mem = s.mem := rfl
@[simp] theorem setFlag_v (f : Bool) : (s.setFlag f).v = s.v.set 15 (if f then 1 else 0) := rfl
@[simp] theorem setFlag_pc (f : Bool) : (s.setFlag f).pc = s.pc := rfl
@[simp] theorem setFlag_i (f : Bool) : (s.setFlag f).i = s.i := rfl
@[simp] theorem setFlag_stack (f : Bool) : (s.setFlag f).stack = s.stack := rfl
@[simp] theorem setFlag_sp (f : Bool) : (s.setFlag f).sp = s.sp := rfl
@[simp] theorem setFlag_dt (f : Bool) : (s.setFlag f).dt = s.dt := rfl
@[simp] theorem setFlag_st (f : Bool) : (s.setFlag f).st = s.st := rfl
@[simp] theorem setFlag_fb (f : Bool) : (s.setFlag f).fb = s.fb := rfl
@[simp] theorem setFlag_keys (f : Bool) : (s.setFlag f).keys = s.keys := rfl
@[simp] theorem setFlag_status (f : Bool) : (s.setFlag f).status = s.status := rfl
@[simp] theorem setFlag_err (f : Bool) : (s.setFlag f).err = s.err := rfl
@[simp] theorem setFlag_kwActive (f : Bool) : (s.setFlag f).kwActive = s.kwActive := rfl
@[simp] theorem setFlag_kwMask (f : Bool) : (s.setFlag f).kwMask = s.kwMask := rfl
@[simp] theorem setFlag_rand (f : Bool) : (s.setFlag f).rand = s.rand := rfl
@[simp] theorem setFlag_draws (f : Bool) : (s.setFlag f).draws = s.draws := rfl
@[simp] theorem setFlag_params (f : Bool) : (s.setFlag f).params = s.params := rfl
@[simp] theorem setFlag_inbox (f : Bool) : (s.setFlag f).inbox = s.inbox := rfl

/-! `setRegFlag` -/

@[simp] theorem setRegFlag_mem (r : Reg) (b : Byte) (f : Bool) : (s.setRegFlag r b f).mem = s.mem := rfl
@[simp] theorem setRegFlag_v (r : Reg) (b : Byte) (f : Bool) : (s.setRegFlag r b f).v = (s.v.set r.val b r.isLt).set 15 (if f then 1 else 0) := rfl
@[simp] theorem setRegFlag_pc (r : Reg) (b : Byte) (f : Bool) : (s.setRegFlag r b f).pc = s.pc := rfl
@[simp] theorem setRegFlag_i (r : Reg) (b : Byte) (f : Bool) : (s.setRegFlag r b f).i = s.i := rfl
@[simp] theorem setRegFlag_stack (r : Reg) (b : Byte) (f : Bool) : (s.setRegFlag r b f).stack = s.stack := rfl
@[simp] theorem setRegFlag_sp (r : Reg) (b : Byte) (f : Bool) : (s.setRegFlag r b f).sp = s.sp := rfl
@[simp] theorem setRegFlag_dt (r : Reg) (b : Byte) (f : Bool) : (s.setRegFlag r b f).dt = s.dt := rfl
@[simp] theorem setRegFlag_st (r : Reg) (b : Byte) (f : Bool) : (s.setRegFlag r b f).st = s.st := rfl
@[simp] theorem setRegFlag_fb (r : Reg) (b : Byte) (f : Bool) : (s.setRegFlag r b f).fb = s.fb := rfl
@[simp] theorem setRegFlag_keys (r : Reg) (b : Byte) (f : Bool) : (s.setRegFlag r b f).keys = s.keys := rfl
@[simp] theorem setRegFlag_status (r : Reg) (b : Byte) (f : Bool) : (s.setRegFlag r b f).status = s.status := rfl
@[simp] theorem setRegFlag_err (r : Reg) (b : Byte) (f : Bool) : (s.setRegFlag r b f).err = s.err := rfl
@[simp] theorem setRegFlag_kwActive (r : Reg) (b : Byte) (f : Bool) : (s.setRegFlag r b f).kwActive = s.kwActive := rfl
@[simp] theorem setRegFlag_kwMask (r : Reg) (b : Byte) (f : Bool) : (s.setRegFlag r b f).kwMask = s.kwMask := rfl
@[simp] theorem setRegFlag_rand (r : Reg) (b : Byte) (f : Bool) : (s.setRegFlag r b f).rand = s.rand := rfl
@[simp] theorem setRegFlag_draws (r : Reg) (b : Byte) (f : Bool) : (s.setRegFlag r b f).draws = s.draws := rfl
@[simp] theorem setRegFlag_params (r : Reg) (b : Byte) (f : Bool) : (s.setRegFlag r b f).params = s.params := rfl
@[simp] theorem setRegFlag_inbox (r : Reg) (b : Byte) (f : Bool) : (s.setRegFlag r b f).inbox = s.inbox := rfl

/-! `jump` -/

@[simp] theorem jump_mem (a : Word) : (s.jump a).mem = s.mem := rfl
@[simp] theorem jump_v (a : Word) : (s.jump a).v = s.v := rfl
@[simp] theorem jump_pc (a : Word) : (s.jump a).pc = a := rfl
@[simp] theorem jump_i (a : Word) : (s.jump a).i = s.i := rfl
@[simp] theorem jump_stack (a : Word) : (s.jump a).stack = s.stack := rfl
@[simp] theorem jump_sp (a : Word) : (s.jump a).sp = s.sp := rfl
@[simp] theorem jump_dt (a : Word) : (s.jump a).dt = s.dt := rfl
@[simp] theorem jump_st (a : Word) : (s.jump a).st = s.st := rfl
@[simp] theorem jump_fb (a : Word) : (s.jump a).fb = s.fb := rfl
@[simp] theorem jump_keys (a : Word) : (s.jump a).keys = s.keys := rfl
@[simp] theorem jump_status (a : Word) : (s.jump a).status = s.status := rfl
@[simp] theorem jump_err (a : Word) : (s.jump a).err = s.err := rfl
@[simp] theorem jump_kwActive (a : Word) : (s.jump a).kwActive = s.kwActive := rfl
@[simp] theorem jump_kwMask (a : Word) : (s.jump a).kwMask = s.kwMask := rfl
@[simp] theorem jump_rand (a : Word) : (s.jump a).rand = s.rand := rfl
@[simp] theorem jump_draws (a : Word) : (s.jump a).draws = s.draws := rfl
@[simp] theorem jump_params (a : Word) : (s.jump a).params = s.params := rfl
@[simp] theorem jump_inbox (a : Word) : (s.jump a).inbox = s.inbox := rfl

/-! `pushed` -/

@[simp] theorem pushed_mem (a : Word) (h : s.sp.val < 16) : (s.pushed a h).mem = s.mem := rfl
@[simp] theorem pushed_v (a : Word) (h : s.sp.val < 16) : (s.pushed a h).v = s.v := rfl
@[simp] theorem pushed_pc (a : Word) (h : s.sp.val < 16) : (s.pushed a h).pc = s.pc := rfl
@[simp] theorem pushed_i (a : Word) (h : s.sp.val < 16) : (s.pushed a h).i = s.i := rfl
@[simp] theorem pushed_stack (a : Word) (h : s.sp.val < 16) : (s.pushed a h).stack = s.stack.set s.sp.val a h := rfl
@[simp] theorem pushed_sp (a : Word) (h : s.sp.val < 16) : (s.pushed a h).sp = ⟨s.sp.val + 1, Nat.succ_lt_succ h⟩ := rfl
@[simp] theorem pushed_dt (a : Word) (h : s.sp.val < 16) : (s.pushed a h).dt = s.dt := rfl
@[simp] theorem pushed_st (a : Word) (h : s.sp.val < 16) : (s.pushed a h).st = s.st := rfl
@[simp] theorem pushed_fb (a : Word) (h : s.sp.val < 16) : (s.pushed a h).fb = s.fb := rfl
@[simp] theorem pushed_keys (a : Word) (h : s.sp.val < 16) : (s.pushed a h).keys = s.keys := rfl
@[simp] theorem pushed_status (a : Word) (h : s.sp.val < 16) : (s.pushed a h).status = s.status := rfl
@[simp] theorem pushed_err (a : Word) (h : s.sp.val < 16) : (s.pushed a h).err = s.err := rfl
@[simp] theorem pushed_kwActive (a : Word) (h : s.sp.val < 16) : (s.pushed a h).kwActive = s.kwActive := rfl
@[simp] theorem pushed_kwMask (a : Word) (h : s.sp.val < 16) : (s.pushed a h).kwMask = s.kwMask := rfl
@[simp] theorem pushed_rand (a : Word) (h : s.sp.val < 16) : (s.pushed a h).rand = s.rand := rfl
@[simp] theorem pushed_draws (a : Word) (h : s.sp.val < 16) : (s.pushed a h).draws = s.draws := rfl
@[simp] theorem pushed_params (a : Word) (h : s.sp.val < 16) : (s.pushed a h).params = s.params := rfl
@[simp] theorem pushed_inbox (a : Word) (h : s.sp.val < 16) : (s.pushed a h).inbox = s.inbox := rfl

/-! `popped` -/

@[simp] theorem popped_mem : (s.popped).mem = s.mem := rfl
@[simp] theorem popped_v : (s.popped).v = s.v := rfl
@[simp] theorem popped_pc : (s.popped).pc = s.pc := rfl
@[simp] theorem popped_i : (s.popped).i = s.i := rfl
@[simp] theorem popped_stack : (s.popped).stack = s.stack := rfl
@[simp] theorem popped_sp : (s.popped).sp = ⟨s.sp.val - 1, by omega⟩ := rfl
@[simp] theorem popped_dt : (s.popped).dt = s.dt := rfl
@[simp] theorem popped_st : (s.popped).st = s.st := rfl
@[simp] theorem popped_fb : (s.popped).fb = s.fb := rfl
@[simp] theorem popped_keys : (s.popped).keys = s.keys := rfl
@[simp] theorem popped_status : (s.popped).status = s.status := rfl
@[simp] theorem popped_err : (s.popped).err = s.err := rfl
@[simp] theorem popped_kwActive : (s.popped).kwActive = s.kwActive := rfl
@[simp] theorem popped_kwMask : (s.popped).kwMask = s.kwMask := rfl
@[simp] theorem popped_rand : (s.popped).rand = s.rand := rfl
@[simp] theorem popped_draws : (s.popped).draws = s.draws := rfl
@[simp] theorem popped_params : (s.popped).params = s.params := rfl
@[simp] theorem popped_inbox : (s.popped).inbox = s.inbox := rfl

/-! `storeBytes` -/

@[simp] theorem storeBytes_mem (bs : List Byte) : (s.storeBytes bs).mem = s.mem.writeBytes s.i.toNat bs := rfl
@[simp] theorem storeBytes_v (bs : List Byte) : (s.storeBytes bs).v = s.v := rfl
@[simp] theorem storeBytes_pc (bs : List Byte) : (s.storeBytes bs).pc = s.pc := rfl
@[simp] theorem storeBytes_i (bs : List Byte) : (s.storeBytes bs).i = s.i := rfl
@[simp] theorem storeBytes_stack (bs : List Byte) : (s.storeBytes bs).stack = s.stack := rfl
@[simp] theorem storeBytes_sp (bs : List Byte) : (s.storeBytes bs).sp = s.sp := rfl
@[simp] theorem storeBytes_dt (bs : List Byte) : (s.storeBytes bs).dt = s.dt := rfl
@[simp] theorem storeBytes_st (bs : List Byte) : (s.storeBytes bs).st = s.st := rfl
@[simp] theorem storeBytes_fb (bs : List Byte) : (s.storeBytes bs).fb = s.fb := rfl
@[simp] theorem storeBytes_keys (bs : List Byte) : (s.storeBytes bs).keys = s.keys := rfl
@[simp] theorem storeBytes_status (bs : List Byte) : (s.storeBytes bs).status = s.status := rfl
@[simp] theorem storeBytes_err (bs : List Byte) : (s.storeBytes bs).err = s.err := rfl
@[simp] theorem storeBytes_kwActive (bs : List Byte) : (s.storeBytes bs).kwActive = s.kwActive := rfl
@[simp] theorem storeBytes_kwMask (bs : List Byte) : (s.storeBytes bs).kwMask = s.kwMask := rfl
@[simp] theorem storeBytes_rand (bs : List Byte) : (s.storeBytes bs).rand = s.rand := rfl
@[simp] theorem storeBytes_draws (bs : List Byte) : (s.storeBytes bs).draws = s.draws := rfl
@[simp] theorem storeBytes_params (bs : List Byte) : (s.storeBytes bs).params = s.params := rfl
@[simp] theorem storeBytes_inbox (bs : List Byte) : (s.storeBytes bs).inbox = s.inbox := rfl

/-! `advanced` -/

@[simp] theorem advanced_mem : (s.advanced).mem = s.mem := rfl
@[simp] theorem advanced_v : (s.advanced).v = s.v := rfl
@[simp] theorem advanced_pc : (s.advanced).pc = s.pc + 2 := rfl
@[simp] theorem advanced_i : (s.advanced).i = s.i := rfl
@[simp] theorem advanced_stack : (s.advanced).stack = s.stack := rfl
@[simp] theorem advanced_sp : (s.advanced).sp = s.sp := rfl
@[simp] theorem advanced_dt : (s.advanced).dt = s.dt := rfl
@[simp] theorem advanced_st : (s.advanced).st = s.st := rfl
@[simp] theorem advanced_fb : (s.advanced).fb = s.fb := rfl
@[simp] theorem advanced_keys : (s.advanced).keys = s.keys := rfl
@[simp] theorem advanced_status : (s.advanced).status = s.status := rfl
@[simp] theorem advanced_err : (s.advanced).err = s.err := rfl
@[simp] theorem advanced_kwActive : (s.advanced).kwActive = s.kwActive := rfl
@[simp] theorem advanced_kwMask : (s.advanced).kwMask = s.kwMask := rfl
@[simp] theorem advanced_rand : (s.advanced).rand = s.rand := rfl
@[simp] theorem advanced_draws : (s.advanced).draws = s.draws := rfl
@[simp] theorem advanced_params : (s.advanced).params = s.params := rfl
@[simp] theorem advanced_inbox : (s.advanced).inbox = s.inbox := rfl

/-! `raiseAtFetch` -/

@[simp] theorem raiseAtFetch_mem (info : ErrorInfo) : (s.raiseAtFetch info).mem = s.mem := rfl
@[simp] theorem raiseAtFetch_v (info : ErrorInfo) : (s.raiseAtFetch info).v = s.v := rfl
@[simp] theorem raiseAtFetch_pc (info : ErrorInfo) : (s.raiseAtFetch info).pc = s.pc := rfl
@[simp] theorem raiseAtFetch_i (info : ErrorInfo) : (s.raiseAtFetch info).i = s.i := rfl
@[simp] theorem raiseAtFetch_stack (info : ErrorInfo) : (s.raiseAtFetch info).stack = s.stack := rfl
@[simp] theorem raiseAtFetch_sp (info : ErrorInfo) : (s.raiseAtFetch info).sp = s.sp := rfl
@[simp] theorem raiseAtFetch_dt (info : ErrorInfo) : (s.raiseAtFetch info).dt = s.dt := rfl
@[simp] theorem raiseAtFetch_st (info : ErrorInfo) : (s.raiseAtFetch info).st = s.st := rfl
@[simp] theorem raiseAtFetch_fb (info : ErrorInfo) : (s.raiseAtFetch info).fb = s.fb := rfl
@[simp] theorem raiseAtFetch_keys (info : ErrorInfo) : (s.raiseAtFetch info).keys = s.keys := rfl
@[simp] theorem raiseAtFetch_status (info : ErrorInfo) : (s.raiseAtFetch info).status = .halted := rfl
@[simp] theorem raiseAtFetch_err (info : ErrorInfo) : (s.raiseAtFetch info).err = some { pcFetch := some s.pc, info := info } := rfl
@[simp] theorem raiseAtFetch_kwActive (info : ErrorInfo) : (s.raiseAtFetch info).kwActive = s.kwActive := rfl
@[simp] theorem raiseAtFetch_kwMask (info : ErrorInfo) : (s.raiseAtFetch info).kwMask = s.kwMask := rfl
@[simp] theorem raiseAtFetch_rand (info : ErrorInfo) : (s.raiseAtFetch info).rand = s.rand := rfl
@[simp] theorem raiseAtFetch_draws (info : ErrorInfo) : (s.raiseAtFetch info).draws = s.draws := rfl
@[simp] theorem raiseAtFetch_params (info : ErrorInfo) : (s.raiseAtFetch info).params = s.params := rfl
@[simp] theorem raiseAtFetch_inbox (info : ErrorInfo) : (s.raiseAtFetch info).inbox = s.inbox := rfl

/-! `skipIf`: only `pc` -/

@[simp] theorem skipIf_mem (c : Bool) : (s.skipIf c).mem = s.mem := by cases c <;> rfl
@[simp] theorem skipIf_v (c : Bool) : (s.skipIf c).v = s.v := by cases c <;> rfl
@[simp] theorem skipIf_pc (c : Bool) : (s.skipIf c).pc = if c then s.pc + 2 else s.pc := by
  cases c <;> rfl
@[simp] theorem skipIf_i (c : Bool) : (s.skipIf c).i = s.i := by cases c <;> rfl
@[simp] theorem skipIf_stack (c : Bool) : (s.skipIf c).stack = s.stack := by cases c <;> rfl
@[simp] theorem skipIf_sp (c : Bool) : (s.skipIf c).sp = s.sp := by cases c <;> rfl
@[simp] theorem skipIf_dt (c : Bool) : (s.skipIf c).dt = s.dt := by cases c <;> rfl
@[simp] theorem skipIf_st (c : Bool) : (s.skipIf c).st = s.st := by cases c <;> rfl
@[simp] theorem skipIf_fb (c : Bool) : (s.skipIf c).fb = s.fb := by cases c <;> rfl
@[simp] theorem skipIf_keys (c : Bool) : (s.skipIf c).keys = s.keys := by cases c <;> rfl
@[simp] theorem skipIf_status (c : Bool) : (s.skipIf c).status = s.status := by cases c <;> rfl
@[simp] theorem skipIf_err (c : Bool) : (s.skipIf c).err = s.err := by cases c <;> rfl
@[simp] theorem skipIf_kwActive (c : Bool) : (s.skipIf c).kwActive = s.kwActive := by cases c <;> rfl
@[simp] theorem skipIf_kwMask (c : Bool) : (s.skipIf c).kwMask = s.kwMask := by cases c <;> rfl
@[simp] theorem skipIf_rand (c : Bool) : (s.skipIf c).rand = s.rand := by cases c <;> rfl
@[simp] theorem skipIf_draws (c : Bool) : (s.skipIf c).draws = s.draws := by cases c <;> rfl
@[simp] theorem skipIf_params (c : Bool) : (s.skipIf c).params = s.params := by cases c <;> rfl
@[simp] theorem skipIf_inbox (c : Bool) : (s.skipIf c).inbox = s.inbox := by cases c <;> rfl

/-! `updateI`: only `i` -/

@[simp] theorem updateI_mem (x : Reg) : (s.updateI x).mem = s.mem := by
  unfold updateI; cases s.params.ldstI <;> rfl
@[simp] theorem updateI_v (x : Reg) : (s.updateI x).v = s.v := by
  unfold updateI; cases s.params.ldstI <;> rfl
@[simp] theorem updateI_pc (x : Reg) : (s.updateI x).pc = s.pc := by
  unfold updateI; cases s.params.ldstI <;> rfl
@[simp] theorem updateI_stack (x : Reg) : (s.updateI x).stack = s.stack := by
  unfold updateI; cases s.params.ldstI <;> rfl
@[simp] theorem updateI_sp (x : Reg) : (s.updateI x).sp = s.sp := by
  unfold updateI; cases s.params.ldstI <;> rfl
@[simp] theorem updateI_dt (x : Reg) : (s.updateI x).dt = s.dt := by
  unfold updateI; cases s.params.ldstI <;> rfl
@[simp] theorem updateI_st (x : Reg) : (s.updateI x).st = s.st := by
  unfold updateI; cases s.params.ldstI <;> rfl
@[simp] theorem updateI_fb (x : Reg) : (s.updateI x).fb = s.fb := by
  unfold updateI; cases s.params.ldstI <;> rfl
@[simp] theorem updateI_keys (x : Reg) : (s.updateI x).keys = s.keys := by
  unfold updateI; cases s.params.ldstI <;> rfl
@[simp] theorem updateI_status (x : Reg) : (s.updateI x).status = s.status := by
  unfold updateI; cases s.params.ldstI <;> rfl
@[simp] theorem updateI_err (x : Reg) : (s.updateI x).err = s.err := by
  unfold updateI; cases s.params.ldstI <;> rfl
@[simp] theorem updateI_kwActive (x : Reg) : (s.updateI x).kwActive = s.kwActive := by
  unfold updateI; cases s.params.ldstI <;> rfl
@[simp] theorem updateI_kwMask (x : Reg) : (s.updateI x).kwMask = s.kwMask := by
  unfold updateI; cases s.params.ldstI <;> rfl
@[simp] theorem updateI_rand (x : Reg) : (s.updateI x).rand = s.rand := by
  unfold updateI; cases s.params.ldstI <;> rfl
@[simp] theorem updateI_draws (x : Reg) : (s.updateI x).draws = s.draws := by
  unfold updateI; cases s.params.ldstI <;> rfl
@[simp] theorem updateI_params (x : Reg) : (s.updateI x).params = s.params := by
  unfold updateI; cases s.params.ldstI <;> rfl
@[simp] theorem updateI_inbox (x : Reg) : (s.updateI x).inbox = s.inbox := by
  unfold updateI; cases s.params.ldstI <;> rfl

/-! `fx1eFlag`: only `v` -/

@[simp] theorem fx1eFlag_mem (c : Bool) : (s.fx1eFlag c).mem = s.mem := by
  unfold fx1eFlag; cases s.params.fx1eVf <;> rfl
@[simp] theorem fx1eFlag_pc (c : Bool) : (s.fx1eFlag c).pc = s.pc := by
  unfold fx1eFlag; cases s.params.fx1eVf <;> rfl
@[simp] theorem fx1eFlag_i (c : Bool) : (s.fx1eFlag c).i = s.i := by
  unfold fx1eFlag; cases s.params.fx1eVf <;> rfl
@[simp] theorem fx1eFlag_stack (c : Bool) : (s.fx1eFlag c).stack = s.stack := by
  unfold fx1eFlag; cases s.params.fx1eVf <;> rfl
@[simp] theorem fx1eFlag_sp (c : Bool) : (s.fx1eFlag c).sp = s.sp := by
  unfold fx1eFlag; cases s.params.fx1eVf <;> rfl
@[simp] theorem fx1eFlag_dt (c : Bool) : (s.fx1eFlag c).dt = s.dt := by
  unfold fx1eFlag; cases s.params.fx1eVf <;> rfl
@[simp] theorem fx1eFlag_st (c : Bool) : (s.fx1eFlag c).st = s.st := by
  unfold fx1eFlag; cases s.params.fx1eVf <;> rfl
@[simp] theorem fx1eFlag_fb (c : Bool) : (s.fx1eFlag c).fb = s.fb := by
  unfold fx1eFlag; cases s.params.fx1eVf <;> rfl
@[simp] theorem fx1eFlag_keys (c : Bool) : (s.fx1eFlag c).keys = s.keys := by
  unfold fx1eFlag; cases s.params.fx1eVf <;> rfl
@[simp] theorem fx1eFlag_status (c : Bool) : (s.fx1eFlag c).status = s.status := by
  unfold fx1eFlag; cases s.params.fx1eVf <;> rfl
@[simp] theorem fx1eFlag_err (c : Bool) : (s.fx1eFlag c).err = s.err := by
  unfold fx1eFlag; cases s.params.fx1eVf <;> rfl
@[simp] theorem fx1eFlag_kwActive (c : Bool) : (s.fx1eFlag c).kwActive = s.kwActive := by
  unfold fx1eFlag; cases s.params.fx1eVf <;> rfl
@[simp] theorem fx1eFlag_kwMask (c : Bool) : (s.fx1eFlag c).kwMask = s.kwMask := by
  unfold fx1eFlag; cases s.params.fx1eVf <;> rfl
@[simp] theorem fx1eFlag_rand (c : Bool) : (s.fx1eFlag c).rand = s.rand := by
  unfold fx1eFlag; cases s.params.fx1eVf <;> rfl
@[simp] theorem fx1eFlag_draws (c : Bool) : (s.fx1eFlag c).draws = s.draws := by
  unfold fx1eFlag; cases s.params.fx1eVf <;> rfl
@[simp] theorem fx1eFlag_params (c : Bool) : (s.fx1eFlag c).params = s.params := by
  unfold fx1eFlag; cases s.params.fx1eVf <;> rfl
@[simp] theorem fx1eFlag_inbox (c : Bool) : (s.fx1eFlag c).inbox = s.inbox := by
  unfold fx1eFlag; cases s.params.fx1eVf <;> rfl

/-! `loadFirst`: only `v` -/

@[simp] theorem loadFirst_mem (n : Nat) : (s.loadFirst n).mem = s.mem := by
  induction n with
  | zero => rfl
  | succ n ih => exact ih
@[simp] theorem loadFirst_pc (n : Nat) : (s.loadFirst n).pc = s.pc := by
  induction n with
  | zero => rfl
  | succ n ih => exact ih
@[simp] theorem loadFirst_i (n : Nat) : (s.loadFirst n).i = s.i := by
  induction n with
  | zero => rfl
  | succ n ih => exact ih
@[simp] theorem loadFirst_stack (n : Nat) : (s.loadFirst n).stack = s.stack := by
  induction n with
  | zero => rfl
  | succ n ih => exact ih
@[simp] theorem loadFirst_sp (n : Nat) : (s.loadFirst n).sp = s.sp := by
  induction n with
  | zero => rfl
  | succ n ih => exact ih
@[simp] theorem loadFirst_dt (n : Nat) : (s.loadFirst n).dt = s.dt := by
  induction n with
  | zero => rfl
  | succ n ih => exact ih
@[simp] theorem loadFirst_st (n : Nat) : (s.loadFirst n).st = s.st := by
  induction n with
  | zero => rfl
  | succ n ih => exact ih
@[simp] theorem loadFirst_fb (n : Nat) : (s.loadFirst n).fb = s.fb := by
  induction n with
  | zero => rfl
  | succ n ih => exact ih
@[simp] theorem loadFirst_keys (n : Nat) : (s.loadFirst n).keys = s.keys := by
  induction n with
  | zero => rfl
  | succ n ih => exact ih
@[simp] theorem loadFirst_status (n : Nat) : (s.loadFirst n).status = s.status := by
  induction n with
  | zero => rfl
  | succ n ih => exact ih
@[simp] theorem loadFirst_err (n : Nat) : (s.loadFirst n).err = s.err := by
  induction n with
  | zero => rfl
  | succ n ih => exact ih
@[simp] theorem loadFirst_kwActive (n : Nat) : (s.loadFirst n).kwActive = s.kwActive := by
  induction n with
  | zero => rfl
  | succ n ih => exact ih
@[simp] theorem loadFirst_kwMask (n : Nat) : (s.loadFirst n).kwMask = s.kwMask := by
  induction n with
  | zero => rfl
  | succ n ih => exact ih
@[simp] theorem loadFirst_rand (n : Nat) : (s.loadFirst n).rand = s.rand := by
  induction n with
  | zero => rfl
  | succ n ih => exact ih
@[simp] theorem loadFirst_draws (n : Nat) : (s.loadFirst n).draws = s.draws := by
  induction n with
  | zero => rfl
  | succ n ih => exact ih
@[simp] theorem loadFirst_params (n : Nat) : (s.loadFirst n).params = s.params := by
  induction n with
  | zero => rfl
  | succ n ih => exact ih
@[simp] theorem loadFirst_inbox (n : Nat) : (s.loadFirst n).inbox = s.inbox := by
  induction n with
  | zero => rfl
  | succ n ih => exact ih

end Sys2Proof.Machine.State
end

