-- ==== Sys2Proof/Laws/Ops.lean ====
section
/-! SUPPORT. One lemma per shared operation that says everything it can do. -/

namespace Sys2Proof.Machine

namespace State

/-! ## Registers -/

/-- Reading after one register write. -/
theorem reg_setReg (s : State) (r : Reg) (b : Byte) (q : Reg) :
    (s.setReg r b).reg q = if q = r then b else s.reg q := by
  by_cases h : q = r
  · subst h; simp [reg]
  · have : r.val ≠ q.val := fun e => h (Fin.ext e.symm)
    simp [reg, this, h]

/-- Reading after a flag write. -/
theorem reg_setFlag (s : State) (f : Bool) (q : Reg) :
    (s.setFlag f).reg q = if q = 15 then (if f then 1 else 0) else s.reg q :=
  reg_setReg s 15 _ q

/-- Reading after a result and then the flag: the flag wins in `VF` (10_state.md R22). -/
theorem reg_setRegFlag (s : State) (r : Reg) (b : Byte) (f : Bool) (q : Reg) :
    (s.setRegFlag r b f).reg q = if q = 15 then (if f then 1 else 0) else if q = r then b else s.reg q := by
  rw [setRegFlag, reg_setFlag, reg_setReg]

/-- The register file is its registers. -/
theorem v_ext {s t : State} (h : ∀ r, s.reg r = t.reg r) : s.v = t.v :=
  Vector.ext fun i hi => h ⟨i, hi⟩

/-- Reading after a block load: the loaded bytes in the first `n` registers, the rest unchanged (42_index_memory.md R158). -/
theorem reg_loadFirst (s : State) : ∀ (n : Nat), n ≤ 16 → ∀ q : Reg,
    (s.loadFirst n).reg q = if q.val < n then s.mem.read (s.i.toNat + q.val) else s.reg q
  | 0, _, q => by simp [loadFirst]
  | n + 1, hn, q => by
    rw [loadFirst, reg_setReg, reg_loadFirst s n (by omega) q]
    have hv : (Fin.ofNat 16 n).val = n := Nat.mod_eq_of_lt (by omega)
    by_cases h : q = Fin.ofNat 16 n
    · have hq : q.val = n := by rw [h, hv]
      rw [if_pos h, if_pos (by omega), hq]
    · have hq : q.val ≠ n := fun e => h (Fin.ext (e.trans hv.symm))
      rw [if_neg h]
      by_cases h2 : q.val < n
      · rw [if_pos h2, if_pos (by omega)]
      · rw [if_neg h2, if_neg (by omega)]

/-! ## Operations that write one field only -/

/-- `UpdateI` writes `I` only (42_index_memory.md R157). -/
theorem updateI_only (s : State) (x : Reg) : s.updateI x = { s with i := (s.updateI x).i } := by
  unfold updateI
  cases s.params.ldstI <;> rfl

/-- `I` after `UpdateI`, by the parameter (42_index_memory.md R157). -/
theorem updateI_i (s : State) (x : Reg) :
    (s.updateI x).i = match s.params.ldstI with
      | .unchanged => s.i
      | .incXPlus1 => s.i + BitVec.ofNat 16 (x.val + 1)
      | .incX => s.i + BitVec.ofNat 16 x.val := by
  unfold updateI
  cases s.params.ldstI <;> rfl

/-- The flag of `FX1E` writes registers only (42_index_memory.md R151). -/
theorem fx1eFlag_only (s : State) (f : Bool) : s.fx1eFlag f = { s with v := (s.fx1eFlag f).v } := by
  unfold fx1eFlag
  cases s.params.fx1eVf <;> rfl

/-- Reading after the flag of `FX1E`: `VF` changes under `OVERFLOW_FFF` only (42_index_memory.md R151). -/
theorem reg_fx1eFlag (s : State) (f : Bool) (q : Reg) :
    (s.fx1eFlag f).reg q =
      if s.params.fx1eVf = .overflowFFF ∧ q = 15 then (if f then 1 else 0) else s.reg q := by
  unfold fx1eFlag
  cases s.params.fx1eVf
  · simp
  · rw [reg_setFlag]; simp

/-- A block load writes registers only (42_index_memory.md R158). -/
theorem loadFirst_only (s : State) : ∀ n, s.loadFirst n = { s with v := (s.loadFirst n).v }
  | 0 => rfl
  | n + 1 => by rw [loadFirst, setReg, loadFirst_only s n]

/-- A skip writes `pc` only (40_control_flow.md R106). -/
theorem skipIf_only (s : State) (c : Bool) : s.skipIf c = { s with pc := if c then s.pc + 2 else s.pc } := by
  cases c <;> rfl

/-! ## The bytes a block store writes -/

@[simp] theorem regsUpTo_length (s : State) (x : Reg) : (s.regsUpTo x).length = x.val + 1 := by
  have := x.isLt
  simp [regsUpTo]

/-- Byte `k` of a block store is `V[k]` (42_index_memory.md R156). -/
theorem regsUpTo_getD (s : State) (x k : Reg) (h : k.val ≤ x.val) : (s.regsUpTo x).getD k.val 0 = s.reg k := by
  have hk := k.isLt
  have hlen : k.val < (s.regsUpTo x).length := by rw [regsUpTo_length]; omega
  rw [List.getD_eq_getElem _ _ hlen]
  simp [regsUpTo, reg]

end State

/-! ## The bounds check (20_memory.md R53, R56) -/

/-- No bad address among the `n` from `base` (20_memory.md R53). -/
theorem firstBad_eq_none {base n : Nat} : firstBad base n = none ↔ n = 0 ∨ base + n ≤ 4096 := by
  simp only [firstBad, Config.memSize, List.find?_eq_none, List.mem_map, List.mem_range, decide_eq_true_eq]
  constructor
  · intro h
    by_contra hc
    exact h (base + (n - 1)) ⟨n - 1, by omega, rfl⟩ (by omega)
  · rintro h _ ⟨k, hk, rfl⟩
    omega

/-- An address found bad is the lowest one. -/
theorem firstBad_some {base n ea : Nat} (h : firstBad base n = some ea) : ea = max base 4096 := by
  rw [firstBad, List.find?_map] at h
  obtain ⟨k, hk, rfl⟩ := Option.map_eq_some_iff.1 h
  obtain ⟨h1, -, h3⟩ := List.find?_range_eq_some.1 hk
  simp only [Function.comp, Config.memSize, decide_eq_true_eq, Bool.not_eq_true', decide_eq_false_iff_not] at h1 h3
  have h0 := h3 0
  have hb := h3 (4096 - base)
  by_contra hc
  by_cases hlt : base < 4096
  · exact hb (by omega) (by omega)
  · exact h0 (by omega) (by omega)

/-- The bad address reported is the lowest one: `base` itself, or 4096 (20_memory.md R56). -/
theorem firstBad_eq_some {base n ea : Nat} :
    firstBad base n = some ea ↔ 0 < n ∧ 4096 < base + n ∧ ea = max base 4096 := by
  constructor
  · intro h
    have hne : firstBad base n ≠ none := by simp [h]
    rw [Ne, firstBad_eq_none] at hne
    exact ⟨by omega, by omega, firstBad_some h⟩
  · rintro ⟨h1, h2, rfl⟩
    cases hf : firstBad base n with
    | none => rw [firstBad_eq_none] at hf; omega
    | some ea => rw [firstBad_some hf]

/-- Every address good: the rest runs. -/
theorem guardBounds_ok {n : Nat} {s : State} (k : State → State) (h : n = 0 ∨ s.i.toNat + n ≤ 4096) :
    guardBounds n k s = .next (k s) := by
  rw [guardBounds, firstBad_eq_none.2 h]

/-- A bad address: the fatal error with the lowest one, and nothing else. -/
theorem guardBounds_bad {n : Nat} {s : State} (k : State → State) (h0 : 0 < n) (h : 4096 < s.i.toNat + n) :
    guardBounds n k s = .next (s.raise (.invariantViolation .memBounds (max s.i.toNat 4096))) := by
  rw [guardBounds, firstBad_eq_some.2 ⟨h0, h, rfl⟩]

/-- Everything a guarded access can do. -/
theorem guardBounds_cases {n : Nat} {k : State → State} {s t : State} (h : guardBounds n k s = .next t) :
    ((n = 0 ∨ s.i.toNat + n ≤ 4096) ∧ t = k s) ∨
      (0 < n ∧ 4096 < s.i.toNat + n ∧ t = s.raise (.invariantViolation .memBounds (max s.i.toNat 4096))) := by
  by_cases hc : n = 0 ∨ s.i.toNat + n ≤ 4096
  · rw [guardBounds_ok k hc] at h
    exact .inl ⟨hc, (Host.Outcome.next.inj h).symm⟩
  · rw [guardBounds_bad k (by omega) (by omega)] at h
    exact .inr ⟨by omega, by omega, (Host.Outcome.next.inj h).symm⟩

/-! ## The call stack (10_state.md R30, R31) -/

/-- A push on a stack that is not full. -/
theorem pushThen_ok {v : Word} {k : State → State} {s : State} (h : s.sp.val < 16) :
    pushThen v k s = .next (k (s.pushed v h)) := dif_pos h

/-- A push on a full stack. -/
theorem pushThen_full {v : Word} {k : State → State} {s : State} (h : s.sp.val = 16) :
    pushThen v k s = .next (s.raise (.stackOverflow v)) := dif_neg (by simp [h])

/-- A pop from a stack that is not empty. -/
theorem popThen_ok {k : Word → State → State} {s : State} (h : 0 < s.sp.val) :
    popThen k s = .next (k s.top s.popped) := if_pos h

/-- A pop from an empty stack. -/
theorem popThen_empty {k : Word → State → State} {s : State} (h : s.sp.val = 0) :
    popThen k s = .next (s.raise .stackUnderflow) := if_neg (by omega)

/-! ## Keys (44_timers_keys.md R180, R186) -/

/-- The lowest key of a key state that has one (44_timers_keys.md R186). -/
theorem lowestKey_spec {ks : KeyState} (h : ks ≠ 0) :
    (lowestKey ks).toNat < 16 ∧ ks.getLsbD (lowestKey ks).toNat = true ∧
      ∀ j, j < (lowestKey ks).toNat → ks.getLsbD j = false := by
  cases hf : (List.range 16).find? (fun k => ks.getLsbD k) with
  | none =>
    refine absurd ?_ h
    apply BitVec.eq_of_getLsbD_eq
    intro i hi
    have := List.find?_eq_none.1 hf i (List.mem_range.2 hi)
    simpa using this
  | some k =>
    obtain ⟨h1, h2, h3⟩ := List.find?_range_eq_some.1 hf
    have hk : k < 16 := List.mem_range.1 h2
    have hv : (lowestKey ks).toNat = k := by
      rw [lowestKey, hf, Option.getD_some, BitVec.toNat_ofNat]
      omega
    rw [hv]
    refine ⟨hk, h1, fun j hj => ?_⟩
    simpa using h3 j hj

/-- With a key number 0 to 15 both settings use it (44_timers_keys.md R180). -/
theorem State.keyIndex_of_lt (s : State) {b : Byte} (h : b.toNat < 16) : s.keyIndex b = some b.toNat := by
  unfold State.keyIndex
  cases s.params.keyIndex
  · exact if_pos h
  · rw [Nat.mod_eq_of_lt h]

/-- What the skip on a key answers. -/
theorem skipOnKey_eq {p : Bool} {b : Byte} {s : State} {k : Nat} (h : s.keyIndex b = some k) :
    skipOnKey p b s = .next (s.skipIf (s.keyPressed k == p)) := by
  rw [skipOnKey, h]

/-- What the skip on a key answers where the index raises. -/
theorem skipOnKey_raise {p : Bool} {b : Byte} {s : State} (h : s.keyIndex b = none) :
    skipOnKey p b s = .next (s.raise (.invariantViolation .keyIndex b.toNat)) := by
  rw [skipOnKey, h]

/-! ## The three digits (42_index_memory.md R155) -/

@[simp] theorem bcdDigits_length (b : Byte) : (bcdDigits b).length = 3 := rfl

/-- The digits as numbers: each 0 to 9, and together the byte (42_index_memory.md R155). -/
theorem bcdDigits_toNat (b : Byte) :
    ((bcdDigits b).getD 0 0).toNat = b.toNat / 100 ∧ ((bcdDigits b).getD 1 0).toNat = b.toNat / 10 % 10 ∧
      ((bcdDigits b).getD 2 0).toNat = b.toNat % 10 := by
  have := b.isLt
  simp only [bcdDigits, List.getD_cons_zero, List.getD_cons_succ, BitVec.toNat_ofNat]
  omega

end Sys2Proof.Machine
end

