-- ==== Sys2Proof/Laws/Framebuffer.lean ====
section
/-! SUPPORT. What drawing a list of pixels does, and which pixels a sprite touches. -/

namespace Sys2Proof.Machine

namespace Framebuffer

/-- Two framebuffers with the same pixels are equal. -/
theorem ext {fb fb' : Framebuffer} (h : ∀ p, fb.pixel p = fb'.pixel p) : fb = fb' :=
  Vector.ext fun y hy => Vector.ext fun x hx => h (⟨x, hx⟩, ⟨y, hy⟩)

/-- Every pixel of the clear framebuffer is 0. -/
@[simp] theorem pixel_clear (p : Pixel) : clear.pixel p = false := by
  simp [clear, pixel]

/-- A flip changes its pixel only. -/
theorem pixel_flip (fb : Framebuffer) (p q : Pixel) :
    (fb.flip p).pixel q = if q = p then !fb.pixel p else fb.pixel q := by
  obtain ⟨px, py⟩ := p
  obtain ⟨qx, qy⟩ := q
  by_cases hy : qy = py
  · subst hy
    by_cases hx : qx = px
    · subst hx; simp [flip, pixel]
    · have : px.val ≠ qx.val := fun e => hx (Fin.ext e.symm)
      simp [flip, pixel, this, hx]
  · have : py.val ≠ qy.val := fun e => hy (Fin.ext e.symm)
    simp [flip, pixel, this, hy]

theorem foldl_drawPixel (ps : List Pixel) : ∀ (acc : Framebuffer × Bool), ps.Nodup →
    (∀ q, (ps.foldl drawPixel acc).1.pixel q = (acc.1.pixel q ^^ decide (q ∈ ps))) ∧
      (ps.foldl drawPixel acc).2 = (acc.2 || ps.any fun p => acc.1.pixel p) := by
  induction ps with
  | nil => simp
  | cons p ps ih =>
    intro acc hnd
    obtain ⟨hp, hnd'⟩ := List.nodup_cons.1 hnd
    obtain ⟨h1, h2⟩ := ih (drawPixel acc p) hnd'
    rw [List.foldl_cons]
    constructor
    · intro q
      rw [h1 q]
      simp only [drawPixel, pixel_flip, List.mem_cons]
      by_cases hq : q = p
      · subst hq; simp [hp]
      · simp [hq]
    · rw [h2]
      simp only [drawPixel, List.any_cons, Bool.or_assoc]
      congr 2
      rw [Bool.eq_iff_iff]
      simp only [List.any_eq_true, pixel_flip]
      constructor
      · rintro ⟨q, hq, h⟩
        have : q ≠ p := fun e => hp (e ▸ hq)
        exact ⟨q, hq, by simpa [this] using h⟩
      · rintro ⟨q, hq, h⟩
        have : q ≠ p := fun e => hp (e ▸ hq)
        exact ⟨q, hq, by simpa [this] using h⟩

/-- Drawing distinct pixels toggles each of them once and no other pixel (43_display.md R174). -/
theorem pixel_drawPixels {fb : Framebuffer} {ps : List Pixel} (h : ps.Nodup) (q : Pixel) :
    (fb.drawPixels ps).1.pixel q = (fb.pixel q ^^ decide (q ∈ ps)) :=
  (foldl_drawPixel ps (fb, false) h).1 q

/-- The collision flag: some pixel drawn was set before (43_display.md R172). -/
theorem collision_drawPixels {fb : Framebuffer} {ps : List Pixel} (h : ps.Nodup) :
    (fb.drawPixels ps).2 = ps.any fun p => fb.pixel p :=
  (foldl_drawPixel ps (fb, false) h).2.trans (Bool.false_or _)

end Framebuffer

/-- The pixels of one sprite row. -/
theorem mem_rowPixels {vx vy : Byte} {r : Nat} {b : Byte} {p : Pixel} :
    p ∈ rowPixels vx vy r b ↔
      ∃ c, c < 8 ∧ b.getLsbD (7 - c) = true ∧ p.1.val = (vx.toNat + c) % 64 ∧ p.2.val = (vy.toNat + r) % 32 := by
  simp only [rowPixels, List.mem_filterMap, List.mem_range]
  constructor
  · rintro ⟨c, hc, h⟩
    split at h
    · next hb =>
      cases h
      exact ⟨c, hc, hb, rfl, rfl⟩
    · cases h
  · rintro ⟨c, hc, hb, h1, h2⟩
    refine ⟨c, hc, ?_⟩
    rw [if_pos hb]
    exact congrArg some (Prod.ext (Fin.ext h1.symm) (Fin.ext h2.symm))

/-- The pixels of a sprite (43_display.md R171 to R173). -/
theorem mem_spritePixels {s : State} {vx vy : Byte} {n : Nat} {p : Pixel} :
    p ∈ s.spritePixels vx vy n ↔
      ∃ r c, r < n ∧ c < 8 ∧ (s.mem.read (s.i.toNat + r)).getLsbD (7 - c) = true ∧
        p.1.val = (vx.toNat + c) % 64 ∧ p.2.val = (vy.toNat + r) % 32 := by
  simp only [State.spritePixels, List.mem_flatMap, List.mem_range, mem_rowPixels]
  constructor
  · rintro ⟨r, hr, c, hc, h⟩; exact ⟨r, c, hr, hc, h⟩
  · rintro ⟨r, c, hr, hc, h⟩; exact ⟨r, hr, c, hc, h⟩

/-- The eight columns of a row are distinct (43_display.md R174). -/
theorem nodup_rowPixels (vx vy : Byte) (r : Nat) (b : Byte) : (rowPixels vx vy r b).Nodup := by
  rw [rowPixels, List.nodup_iff_pairwise_ne, List.pairwise_filterMap]
  refine List.Pairwise.imp_of_mem ?_ List.nodup_range
  intro c d hc hd hcd p hp q hq hpq
  rw [List.mem_range] at hc hd
  split at hp
  · split at hq
    · cases hp
      cases hq
      have := congrArg (fun p : Pixel => p.1.val) hpq
      simp only [Fin.ofNat] at this
      omega
    · cases hq
  · cases hp

/-- "Within one `DXYN` the pixels touched are all distinct" (43_display.md R174). -/
theorem nodup_spritePixels (s : State) (vx vy : Byte) {n : Nat} (hn : n ≤ 16) : (s.spritePixels vx vy n).Nodup := by
  rw [State.spritePixels, List.nodup_flatMap]
  refine ⟨fun r _ => nodup_rowPixels _ _ _ _, ?_⟩
  refine List.Pairwise.imp_of_mem ?_ List.nodup_range
  intro r q hr hq hrq p hp hp'
  rw [List.mem_range] at hr hq
  obtain ⟨-, -, -, -, h1⟩ := mem_rowPixels.1 hp
  obtain ⟨-, -, -, -, h2⟩ := mem_rowPixels.1 hp'
  omega

end Sys2Proof.Machine
end

