-- ==== Sys2Proof/Laws/PerInstr.lean ====
section
/-! SUPPORT. Per-instruction family EncodeLegal: the word of every instruction is a legal word of 30_encoding.md R82. -/

namespace Sys2Proof.Laws.EncodeLegal

/-- The encoding of the instruction matches a row of the opcode table. -/
def Statement (i : Instr) : Prop := WellFormed.legalWord (encode i) = true

/-- A word that matches some row is legal. -/
theorem legal_of_row {w : Word} (r : WellFormed.Row) (hr : r ∈ WellFormed.opcodeRows) (hw : w &&& r.mask = r.pattern) :
    WellFormed.legalWord w = true :=
  List.any_eq_true.2 ⟨r, hr, by simpa [WellFormed.Row.matchesWord] using hw⟩

theorem cls : Statement (.cls) :=
  legal_of_row ⟨"CLS", 0xFFFF, 0x00E0⟩ (by decide) (rfl)

theorem ret : Statement (.ret) :=
  legal_of_row ⟨"RET", 0xFFFF, 0x00EE⟩ (by decide) (rfl)

theorem jp (nnn : Imm12) : Statement (.jp nnn) :=
  legal_of_row ⟨"JP_addr", 0xF000, 0x1000⟩ (by decide) (by rw [and_op]; simp only [encode]; simp; decide)

theorem call (nnn : Imm12) : Statement (.call nnn) :=
  legal_of_row ⟨"CALL_addr", 0xF000, 0x2000⟩ (by decide) (by rw [and_op]; simp only [encode]; simp; decide)

theorem seByte (x : Reg) (kk : Byte) : Statement (.seByte x kk) :=
  legal_of_row ⟨"SE_Vx__byte", 0xF000, 0x3000⟩ (by decide) (by rw [and_op]; simp only [encode]; simp; decide)

theorem sneByte (x : Reg) (kk : Byte) : Statement (.sneByte x kk) :=
  legal_of_row ⟨"SNE_Vx__byte", 0xF000, 0x4000⟩ (by decide) (by rw [and_op]; simp only [encode]; simp; decide)

theorem seReg (x y : Reg) : Statement (.seReg x y) :=
  legal_of_row ⟨"SE_Vx__Vy", 0xF00F, 0x5000⟩ (by decide) (by rw [and_xy]; simp only [encode]; simp; decide)

theorem ldByte (x : Reg) (kk : Byte) : Statement (.ldByte x kk) :=
  legal_of_row ⟨"LD_Vx__byte", 0xF000, 0x6000⟩ (by decide) (by rw [and_op]; simp only [encode]; simp; decide)

theorem addByte (x : Reg) (kk : Byte) : Statement (.addByte x kk) :=
  legal_of_row ⟨"ADD_Vx__byte", 0xF000, 0x7000⟩ (by decide) (by rw [and_op]; simp only [encode]; simp; decide)

theorem ldReg (x y : Reg) : Statement (.ldReg x y) :=
  legal_of_row ⟨"LD_Vx__Vy", 0xF00F, 0x8000⟩ (by decide) (by rw [and_xy]; simp only [encode]; simp; decide)

theorem orReg (x y : Reg) : Statement (.orReg x y) :=
  legal_of_row ⟨"OR_Vx__Vy", 0xF00F, 0x8001⟩ (by decide) (by rw [and_xy]; simp only [encode]; simp; decide)

theorem andReg (x y : Reg) : Statement (.andReg x y) :=
  legal_of_row ⟨"AND_Vx__Vy", 0xF00F, 0x8002⟩ (by decide) (by rw [and_xy]; simp only [encode]; simp; decide)

theorem xorReg (x y : Reg) : Statement (.xorReg x y) :=
  legal_of_row ⟨"XOR_Vx__Vy", 0xF00F, 0x8003⟩ (by decide) (by rw [and_xy]; simp only [encode]; simp; decide)

theorem addReg (x y : Reg) : Statement (.addReg x y) :=
  legal_of_row ⟨"ADD_Vx__Vy", 0xF00F, 0x8004⟩ (by decide) (by rw [and_xy]; simp only [encode]; simp; decide)

theorem subReg (x y : Reg) : Statement (.subReg x y) :=
  legal_of_row ⟨"SUB_Vx__Vy", 0xF00F, 0x8005⟩ (by decide) (by rw [and_xy]; simp only [encode]; simp; decide)

theorem shrReg (x y : Reg) : Statement (.shrReg x y) :=
  legal_of_row ⟨"SHR_Vx__Vy", 0xF00F, 0x8006⟩ (by decide) (by rw [and_xy]; simp only [encode]; simp; decide)

theorem subnReg (x y : Reg) : Statement (.subnReg x y) :=
  legal_of_row ⟨"SUBN_Vx__Vy", 0xF00F, 0x8007⟩ (by decide) (by rw [and_xy]; simp only [encode]; simp; decide)

theorem shlReg (x y : Reg) : Statement (.shlReg x y) :=
  legal_of_row ⟨"SHL_Vx__Vy", 0xF00F, 0x800E⟩ (by decide) (by rw [and_xy]; simp only [encode]; simp; decide)

theorem sneReg (x y : Reg) : Statement (.sneReg x y) :=
  legal_of_row ⟨"SNE_Vx__Vy", 0xF00F, 0x9000⟩ (by decide) (by rw [and_xy]; simp only [encode]; simp; decide)

theorem ldI (nnn : Imm12) : Statement (.ldI nnn) :=
  legal_of_row ⟨"LD_I__addr", 0xF000, 0xA000⟩ (by decide) (by rw [and_op]; simp only [encode]; simp; decide)

theorem jpV0 (nnn : Imm12) : Statement (.jpV0 nnn) :=
  legal_of_row ⟨"JP_V0__addr", 0xF000, 0xB000⟩ (by decide) (by rw [and_op]; simp only [encode]; simp; decide)

theorem rnd (x : Reg) (kk : Byte) : Statement (.rnd x kk) :=
  legal_of_row ⟨"RND_Vx__byte", 0xF000, 0xC000⟩ (by decide) (by rw [and_op]; simp only [encode]; simp; decide)

theorem drw (x y : Reg) (n : Fin 16) : Statement (.drw x y n) :=
  legal_of_row ⟨"DRW_Vx__Vy__nibble", 0xF000, 0xD000⟩ (by decide) (by rw [and_op]; simp only [encode]; simp; decide)

theorem skp (x : Reg) : Statement (.skp x) :=
  legal_of_row ⟨"SKP_Vx", 0xF0FF, 0xE09E⟩ (by decide) (by rw [and_kk]; simp only [encode]; simp; decide)

theorem sknp (x : Reg) : Statement (.sknp x) :=
  legal_of_row ⟨"SKNP_Vx", 0xF0FF, 0xE0A1⟩ (by decide) (by rw [and_kk]; simp only [encode]; simp; decide)

theorem ldVxDT (x : Reg) : Statement (.ldVxDT x) :=
  legal_of_row ⟨"LD_Vx__DT", 0xF0FF, 0xF007⟩ (by decide) (by rw [and_kk]; simp only [encode]; simp; decide)

theorem ldVxK (x : Reg) : Statement (.ldVxK x) :=
  legal_of_row ⟨"LD_Vx__K", 0xF0FF, 0xF00A⟩ (by decide) (by rw [and_kk]; simp only [encode]; simp; decide)

theorem ldDTVx (x : Reg) : Statement (.ldDTVx x) :=
  legal_of_row ⟨"LD_DT__Vx", 0xF0FF, 0xF015⟩ (by decide) (by rw [and_kk]; simp only [encode]; simp; decide)

theorem ldSTVx (x : Reg) : Statement (.ldSTVx x) :=
  legal_of_row ⟨"LD_ST__Vx", 0xF0FF, 0xF018⟩ (by decide) (by rw [and_kk]; simp only [encode]; simp; decide)

theorem addIVx (x : Reg) : Statement (.addIVx x) :=
  legal_of_row ⟨"ADD_I__Vx", 0xF0FF, 0xF01E⟩ (by decide) (by rw [and_kk]; simp only [encode]; simp; decide)

theorem ldFVx (x : Reg) : Statement (.ldFVx x) :=
  legal_of_row ⟨"LD_F__Vx", 0xF0FF, 0xF029⟩ (by decide) (by rw [and_kk]; simp only [encode]; simp; decide)

theorem ldBVx (x : Reg) : Statement (.ldBVx x) :=
  legal_of_row ⟨"LD_B__Vx", 0xF0FF, 0xF033⟩ (by decide) (by rw [and_kk]; simp only [encode]; simp; decide)

theorem storeRegs (x : Reg) : Statement (.storeRegs x) :=
  legal_of_row ⟨"LD__I___Vx", 0xF0FF, 0xF055⟩ (by decide) (by rw [and_kk]; simp only [encode]; simp; decide)

theorem loadRegs (x : Reg) : Statement (.loadRegs x) :=
  legal_of_row ⟨"LD_Vx___I", 0xF0FF, 0xF065⟩ (by decide) (by rw [and_kk]; simp only [encode]; simp; decide)

end Sys2Proof.Laws.EncodeLegal
end

