-- ==== Sys2Proof/Laws/Step.lean ====
section
/-! SUPPORT. What an instruction and what a transition can do, each said once. -/

namespace Sys2Proof.Machine

/-- What an instruction that answers a next state did to the state. -/
inductive Effect (s t : State) : Prop where
  /-- a fatal error: nothing written but `STATUS` and `ERR`, `pc` back at the fetch address -/
  | raised (info : ErrorInfo) (h : t = s.raise info)
  /-- registers and `I` only -/
  | regs (h : t = { s with v := t.v, i := t.i })
  /-- a skip taken or not -/
  | skip (h : t = { s with pc := t.pc }) (hpc : t.pc = s.pc ∨ t.pc = s.pc + 2)
  /-- a jump to an unchecked target -/
  | jump (h : t = { s with pc := t.pc }) (hpc : t.pc.toNat ≤ 0x10FE)
  /-- a call -/
  | call (hsp : s.sp.val < 16) (h : t = { s.pushed s.pc hsp with pc := t.pc }) (hpc : t.pc.toNat ≤ 0xFFF)
  /-- a return -/
  | ret (hsp : 0 < s.sp.val) (h : t = { s.popped with pc := s.top })
  /-- a block store in range -/
  | store (bs : List Byte) (hbs : s.i.toNat + bs.length ≤ 4096)
      (h : t = { s with mem := s.mem.writeBytes s.i.toNat bs, i := t.i })
  /-- the framebuffer and registers -/
  | draw (h : t = { s with fb := t.fb, v := t.v })
  /-- a timer -/
  | timer (h : t = { s with dt := t.dt, st := t.st })
  /-- a key wait that completes -/
  | keyDone (h : t = { s with v := t.v, kwActive := false, kwMask := 0 })
  /-- a key wait that goes on: `pc` back at the fetch address -/
  | keyWait (h : t = { s with kwActive := true, kwMask := s.keys, pc := s.fetchAddr })

/-- Which instructions may have which effect is in the meanings; this says that no instruction does anything else. -/
theorem exec_effect {i : Instr} {s t : State} (h : exec i s = .next t) : Effect s t := by
  have skip : ∀ c, (Host.Outcome.next (s.skipIf c) : Result) = .next t → Effect s t := by
    intro c h
    cases h
    cases c
    · exact .skip rfl (.inl rfl)
    · exact .skip rfl (.inr rfl)
  have key : ∀ p b, skipOnKey p b s = .next t → Effect s t := by
    intro p b h
    cases hk : s.keyIndex b with
    | some k => rw [skipOnKey_eq hk] at h; exact skip _ h
    | none => rw [skipOnKey_raise hk] at h; cases h; exact .raised _ rfl
  cases i with
  | cls => cases h; exact .draw rfl
  | ret =>
    by_cases hsp : 0 < s.sp.val
    · rw [exec, execRet, popThen_ok hsp] at h; cases h; exact .ret hsp rfl
    · rw [exec, execRet, popThen_empty (by omega)] at h; cases h; exact .raised _ rfl
  | jp nnn =>
    cases h
    have := nnn.isLt
    exact .jump rfl (by simp only [State.jump_pc, BitVec.toNat_setWidth]; omega)
  | call nnn =>
    have := nnn.isLt
    by_cases hsp : s.sp.val < 16
    · rw [exec, execCall, pushThen_ok hsp] at h
      cases h
      exact .call hsp rfl (by simp only [State.jump_pc, BitVec.toNat_setWidth]; omega)
    · rw [exec, execCall, pushThen_full (by omega)] at h; cases h; exact .raised _ rfl
  | seByte x kk => exact skip _ h
  | sneByte x kk => exact skip _ h
  | seReg x y => exact skip _ h
  | sneReg x y => exact skip _ h
  | ldByte x kk => cases h; exact .regs rfl
  | addByte x kk => cases h; exact .regs rfl
  | ldReg x y => cases h; exact .regs rfl
  | orReg x y => cases h; exact .regs rfl
  | andReg x y => cases h; exact .regs rfl
  | xorReg x y => cases h; exact .regs rfl
  | addReg x y => cases h; exact .regs rfl
  | subReg x y => cases h; exact .regs rfl
  | shrReg x y => cases h; exact .regs rfl
  | subnReg x y => cases h; exact .regs rfl
  | shlReg x y => cases h; exact .regs rfl
  | rnd x kk => cases h; exact .regs rfl
  | ldI nnn => cases h; exact .regs rfl
  | jpV0 nnn =>
    cases h
    have := nnn.isLt
    have := (s.reg 0).isLt
    exact .jump rfl (by simp only [State.jump_pc, BitVec.toNat_add, BitVec.toNat_setWidth]; omega)
  | drw x y n =>
    obtain ⟨-, rfl⟩ | ⟨-, -, rfl⟩ := guardBounds_cases h
    · exact .draw rfl
    · exact .raised _ rfl
  | skp x => exact key _ _ h
  | sknp x => exact key _ _ h
  | ldVxDT x => cases h; exact .regs rfl
  | ldVxK x =>
    rw [exec, execLdVxK] at h
    split at h
    · cases h; exact .keyDone rfl
    · cases h; exact .keyWait rfl
  | ldDTVx x => cases h; exact .timer rfl
  | ldSTVx x => cases h; exact .timer rfl
  | addIVx x =>
    cases h
    refine .regs ?_
    rw [State.fx1eFlag_only]
  | ldFVx x => cases h; exact .regs rfl
  | ldBVx x =>
    obtain ⟨hb, rfl⟩ | ⟨-, -, rfl⟩ := guardBounds_cases h
    · exact .store (bcdDigits (s.reg x)) (by simp only [bcdDigits_length]; omega) rfl
    · exact .raised _ rfl
  | storeRegs x =>
    rw [exec, execStoreRegs] at h
    obtain ⟨hb, rfl⟩ | ⟨-, -, rfl⟩ := guardBounds_cases h
    · refine .store (s.regsUpTo x) (by rw [State.regsUpTo_length]; omega) ?_
      rw [State.updateI_only]
      rfl
    · exact .raised _ rfl
  | loadRegs x =>
    rw [exec, execLoadRegs] at h
    obtain ⟨-, rfl⟩ | ⟨-, -, rfl⟩ := guardBounds_cases h
    · refine .regs ?_
      rw [State.updateI_only, State.loadFirst_only]
    · exact .raised _ rfl

/-! ## The cycle -/

/-- A fetch in range gives the big-endian word (30_encoding.md R77; 20_memory.md R52). -/
theorem fetchAt_ok {m : Memory} {a : Word} (h : a.toNat + 1 < 4096) :
    fetchAt m a = some (composeWord (m.read a.toNat) (m.read (a.toNat + 1))) := if_pos h

/-- A fetch out of range gives none (30_encoding.md R77). -/
theorem fetchAt_bad {m : Memory} {a : Word} (h : 4096 ≤ a.toNat + 1) : fetchAt m a = none :=
  if_neg (by simp only [Config.memSize]; omega)

/-- What fetch, decode and execute can do when they answer a next state (30_encoding.md R76). -/
theorem fetchDecodeExecute_cases {s t : State} (h : fetchDecodeExecute s = .next t) :
    (4096 ≤ s.pc.toNat + 1 ∧ t = s.raiseAtFetch (.fetchError s.pc)) ∨
    (∃ w r, fetchAt s.mem s.pc = some w ∧ decode w = .error r ∧ t = s.raiseAtFetch (.decodeError w s.pc)) ∨
    (∃ w i, s.pc.toNat + 1 < 4096 ∧ fetchAt s.mem s.pc = some w ∧ decode w = .ok i ∧ exec i s.advanced = .next t) := by
  unfold fetchDecodeExecute at h
  by_cases hb : s.pc.toNat + 1 < 4096
  · rw [fetchAt_ok hb] at h
    right
    cases hd : decode (composeWord (s.mem.read s.pc.toNat) (s.mem.read (s.pc.toNat + 1))) with
    | error r =>
      simp only [hd] at h
      cases h
      exact .inl ⟨_, r, fetchAt_ok hb, hd, rfl⟩
    | ok i =>
      simp only [hd] at h
      exact .inr ⟨_, i, hb, fetchAt_ok hb, hd, h⟩
  · rw [fetchAt_bad (by omega)] at h
    cases h
    exact .inl ⟨by omega, rfl⟩

/-- A cycle in `RUN` latches its inputs and runs one instruction (30_encoding.md R76, R86). -/
theorem cycle_run {keys : KeyState} {r : Byte} {s : State} (h : s.status = .run) :
    cycle keys r s = fetchDecodeExecute { s with keys := keys, rand := r } := by
  rw [cycle, h]

/-- A cycle answers a next state only in `RUN` (30_encoding.md R86). -/
theorem cycle_next {keys : KeyState} {r : Byte} {s t : State} (h : cycle keys r s = .next t) :
    s.status = .run ∧ fetchDecodeExecute { s with keys := keys, rand := r } = .next t := by
  unfold cycle at h
  cases hs : s.status <;> simp only [hs] at h
  · cases h
  · exact ⟨rfl, h⟩
  · cases h

/-- With no transition pending, a step is a cycle with the keys as they stand and a fresh byte. -/
theorem step_idle {s : State} (h : s.inbox = []) :
    step s = cycle s.keys (Config.randomByte s.draws) { s with draws := s.draws + 1 } := by
  rw [step, transition, h]

/-- With a transition pending, a step is that transition. -/
theorem step_move {s : State} {m : HostMove} {rest : List HostMove} (h : s.inbox = m :: rest) :
    step s = hostMove m { s with inbox := rest } := by
  rw [step, transition, h]

/-- In `RUN` with no transition pending, a step is fetch, decode and execute on the latched state. -/
theorem step_idle_run {s : State} (hr : s.status = .run) (hq : s.inbox = []) :
    step s = fetchDecodeExecute { s with rand := Config.randomByte s.draws, draws := s.draws + 1 } :=
  (step_idle hq).trans (cycle_run (s := { s with draws := s.draws + 1 }) hr)

/-- In `RUN` with a cycle queued, a step is fetch, decode and execute on the state with its inputs latched. -/
theorem step_cycle_run {s : State} {k : KeyState} {r : Byte} {rest : List HostMove} (hr : s.status = .run)
    (hq : s.inbox = .cycle k r :: rest) :
    step s = fetchDecodeExecute { s with keys := k, rand := r, inbox := rest } :=
  (step_move hq).trans (cycle_run (s := { s with inbox := rest }) hr)

/-- The state a cycle's fetch begins with: `s` with its inputs latched and its bookkeeping done. -/
def latched (s u : State) : Prop :=
  (∃ k r d q, u = { s with keys := k, rand := r, draws := d, inbox := q }) ∧ s.status = .run

/-- Everything a step can do when it answers a next state. -/
theorem step_cases {s t : State} (h : step s = .next t) :
    (∃ u, latched s u ∧ fetchDecodeExecute u = .next t) ∨
    (∃ image rest, s.inbox = .load image :: rest ∧ loadImage image { s with inbox := rest } = .next t) ∨
    (∃ rest, s.inbox = .timerStep :: rest ∧ t = timerStep { s with inbox := rest }) ∨
    (∃ k rest, s.inbox = .setKeys k :: rest ∧ t = { s with inbox := rest, keys := k }) := by
  cases hq : s.inbox with
  | nil =>
    rw [step_idle hq] at h
    obtain ⟨hr, h⟩ := cycle_next h
    exact .inl ⟨_, ⟨⟨_, _, _, _, rfl⟩, hr⟩, h⟩
  | cons m rest =>
    rw [step_move hq] at h
    cases m with
    | load image => exact .inr (.inl ⟨image, rest, rfl, h⟩)
    | cycle k r =>
      obtain ⟨hr, h⟩ := cycle_next h
      exact .inl ⟨_, ⟨⟨_, _, _, _, rfl⟩, hr⟩, h⟩
    | timerStep => cases h; exact .inr (.inr (.inl ⟨rest, rfl, rfl⟩))
    | setKeys k => cases h; exact .inr (.inr (.inr ⟨k, rest, rfl, rfl⟩))

/-- What a load can do when it answers a next state (70_reset_and_hazards.md R241). -/
theorem loadImage_cases {image : List Byte} {s t : State} (h : loadImage image s = .next t) :
    s.status = .unloaded ∧
    ((0 < image.length ∧ image.length ≤ 3584 ∧
        t = { s with mem := s.mem.writeBytes 0x200 image, pc := 0x200, status := .run }) ∨
      (∃ reason, loadReason image = some reason ∧
        t = s.halt { pcFetch := none, info := .loadError reason image.length })) := by
  unfold loadImage at h
  cases hs : s.status <;> simp only [hs] at h
  · refine ⟨rfl, ?_⟩
    cases hr : loadReason image with
    | some reason =>
      simp only [hr] at h
      cases h
      exact .inr ⟨reason, rfl, rfl⟩
    | none =>
      simp only [hr] at h
      cases h
      unfold loadReason at hr
      split at hr
      · cases hr
      · next h1 =>
        split at hr
        · cases hr
        · next h2 => exact .inl ⟨by omega, by simp only [Config.maxImage] at h1; omega, rfl⟩
  · cases h
  · cases h

/-- A property that the host's moves, the fetch errors and every instruction keep is kept by every step. -/
theorem step_invariant {P : State → Prop}
    (latch : ∀ s k r d q, P s → P { s with keys := k, rand := r, draws := d, inbox := q })
    (halts : ∀ s info, P s → P (s.raiseAtFetch info))
    (runs : ∀ s t i, P s → s.pc.toNat + 1 < 4096 → s.status = .run → exec i s.advanced = .next t → P t)
    (loads : ∀ s t image, P s → loadImage image s = .next t → P t)
    (ticks : ∀ s, P s → P (timerStep s))
    {s t : State} (hs : P s) (h : step s = .next t) : P t := by
  obtain ⟨u, ⟨⟨k, r, d, q, rfl⟩, hr⟩, h⟩ | ⟨image, rest, -, h⟩ | ⟨rest, -, rfl⟩ | ⟨k, rest, -, rfl⟩ := step_cases h
  · have hu := latch s k r d q hs
    obtain ⟨-, rfl⟩ | ⟨w, e, -, -, rfl⟩ | ⟨w, i, hb, -, -, h⟩ := fetchDecodeExecute_cases h
    · exact halts _ _ hu
    · exact halts _ _ hu
    · exact runs _ _ i hu hb hr h
  · exact loads _ _ image (latch s s.keys s.rand s.draws rest hs) h
  · exact ticks _ (latch s s.keys s.rand s.draws rest hs)
  · exact latch s k s.rand s.draws rest hs

end Sys2Proof.Machine
end

