-- ==== Sys2Proof/Tests/Slice0.lean ====
section
/-! SUPPORT. Tests of the model. Expected values come from the spec: 95_test_vectors.md (the vector's id stands in the docstring),
or the encodings of 30_encoding.md, written out bit by bit. Then one witness per hypothesis of each obligation. -/

namespace Sys2Proof.Tests

open Sys2Proof.Machine
open Sys2Proof.Spec

/-! ## Well-formedness: ill-formed words and images are refused (30_encoding.md R82; 60_exceptions.md R205) -/

theorem test_illegal_machine_call : WellFormed.legalWord 0b0000000000000000 = false ∧
    WellFormed.legalWord 0b0000000100100011 = false := by decide
theorem test_illegal_family5 : WellFormed.legalWord 0b0101000100100001 = false := by decide
theorem test_illegal_family8 : WellFormed.legalWord 0b1000000000001000 = false ∧
    WellFormed.legalWord 0b1000000000001111 = false := by decide
theorem test_illegal_family9 : WellFormed.legalWord 0b1001000100100001 = false := by decide
theorem test_illegal_familyE : WellFormed.legalWord 0b1110000000000000 = false := by decide
theorem test_illegal_familyF : WellFormed.legalWord 0b1111000011111111 = false := by decide
theorem test_illegal_image_empty : WellFormed.legalImage [] = false := by decide
theorem test_illegal_image_too_large : WellFormed.legalImage (List.replicate 3585 0) = false := by
  rw [WellFormed.legalImage, List.length_replicate]; rfl
theorem test_legal_image_largest : WellFormed.legalImage (List.replicate 3584 0) = true := by
  rw [WellFormed.legalImage, List.length_replicate]; rfl

/-- The decoder refuses each family's illegal words by name (vectors T-D6 to T-D14). -/
theorem test_decode_rejects :
    decode 0x0123 = .error .machineCall ∧ decode 0x5121 = .error .family5 ∧ decode 0x800F = .error .family8 ∧
    decode 0x9121 = .error .family9 ∧ decode 0xE000 = .error .familyE ∧ decode 0xFFFF = .error .familyF ∧
    decodeBytes [0x12] = .error .truncated := by decide

/-! ## Every constructor's decoding, the words written out from 30_encoding.md R73 and R79 -/

theorem test_decode_control :
    decode 0b0000000011100000 = .ok .cls ∧
    decode 0b0000000011101110 = .ok .ret ∧
    decode 0b0001001000110100 = .ok (.jp 0x234) ∧
    decode 0b0010111111111111 = .ok (.call 0xFFF) ∧
    decode 0b0011001101000010 = .ok (.seByte 3 0x42) ∧
    decode 0b0100001101000010 = .ok (.sneByte 3 0x42) ∧
    decode 0b0101000100100000 = .ok (.seReg 1 2) ∧
    decode 0b1001111000010000 = .ok (.sneReg 14 1) ∧
    decode 0b1011001100000000 = .ok (.jpV0 0x300) := by decide

theorem test_decode_alu :
    decode 0b0110101001111011 = .ok (.ldByte 10 0x7B) ∧
    decode 0b0111111111111111 = .ok (.addByte 15 0xFF) ∧
    decode 0b1000000100100000 = .ok (.ldReg 1 2) ∧
    decode 0b1000000100100001 = .ok (.orReg 1 2) ∧
    decode 0b1000000100100010 = .ok (.andReg 1 2) ∧
    decode 0b1000000100100011 = .ok (.xorReg 1 2) ∧
    decode 0b1000111111100100 = .ok (.addReg 15 14) ∧
    decode 0b1000000100100101 = .ok (.subReg 1 2) ∧
    decode 0b1000000100100110 = .ok (.shrReg 1 2) ∧
    decode 0b1000000100100111 = .ok (.subnReg 1 2) ∧
    decode 0b1000000100101110 = .ok (.shlReg 1 2) ∧
    decode 0b1100001100001111 = .ok (.rnd 3 0x0F) := by decide

theorem test_decode_index_display_keys :
    decode 0b1010001100000000 = .ok (.ldI 0x300) ∧
    decode 0b1101000000010101 = .ok (.drw 0 1 5) ∧
    decode 0b1110010110011110 = .ok (.skp 5) ∧
    decode 0b1110010110100001 = .ok (.sknp 5) ∧
    decode 0b1111001100000111 = .ok (.ldVxDT 3) ∧
    decode 0b1111001100001010 = .ok (.ldVxK 3) ∧
    decode 0b1111001100010101 = .ok (.ldDTVx 3) ∧
    decode 0b1111001100011000 = .ok (.ldSTVx 3) ∧
    decode 0b1111001100011110 = .ok (.addIVx 3) ∧
    decode 0b1111001100101001 = .ok (.ldFVx 3) ∧
    decode 0b1111001100110011 = .ok (.ldBVx 3) ∧
    decode 0b1111001101010101 = .ok (.storeRegs 3) ∧
    decode 0b1111001101100101 = .ok (.loadRegs 3) := by decide

theorem test_encode_words :
    encode (.jp 0x234) = 0x1234 ∧ encode (.drw 0 1 5) = 0xD015 ∧ encode (.shlReg 1 2) = 0x812E ∧
    encode (.loadRegs 15) = 0xFF65 ∧ encode .ret = 0x00EE := by decide

/-- The two bytes of a word, the byte at the lower address high (vector T-D1). -/
theorem test_bytes_big_endian :
    decodeBytes [0x12, 0x34, 0xFF] = .ok (.jp 0x234, [0xFF]) ∧ wordBytes 0x1234 = [0x12, 0x34] ∧
    decodeTableWord 16 0x1234 = some (.jp 0x234) ∧ decodeTableWord 16 0 = none := by decide

/-! ## Construction -/

theorem test_construct_default : construct Params.default = State.reset := by decide

theorem test_reset_font : State.reset.mem.read 0x050 = 0xF0 ∧ State.reset.mem.read 0x073 = 0xF0 ∧
    State.reset.mem.read 0x09F = 0x80 ∧ State.reset.mem.read 0x0A0 = 0 ∧ State.reset.mem.read 0x04F = 0 := by decide

/-! ## One step each: the word stands at 0x200, the host queues one cycle with no key pressed and `r = 0` -/

/-- The state the vectors start from. -/
def start : State := { State.reset with status := .run, inbox := [.cycle 0 0] }

/-- With register values. -/
def withRegs (rs : List (Reg × Byte)) (s : State) : State := rs.foldl (fun s p => s.setReg p.1 p.2) s

/-- With bytes of memory. -/
def withMem (a : Nat) (bs : List Byte) (s : State) : State := { s with mem := s.mem.writeBytes a bs }

/-- The state after one step with the word at 0x200. -/
def after (w : Word) (s : State) : Option State :=
  match step (withMem 0x200 (wordBytes w) s) with
  | .next t => some t
  | .fault _ => none
  | .refused _ => none

/-- What the record of a step that fails says. -/
def failed (w : Word) (s : State) : Option (Status × Option ErrorRecord × Word) :=
  (after w s).map fun t => (t.status, t.err, t.pc)

/-- T-D3, T-D4. -/
theorem test_fetch_error : failed 0 { start with pc := 0xFFF } =
    some (.halted, some { pcFetch := some 0xFFF, info := .fetchError 0xFFF }, 0xFFF) := by decide
/-- T-D2, T-D5: the word at 0x200 is 0x1FFF and its second byte with the next begins 0xFF00. -/
theorem test_fetch_odd : failed 0x1F60 { start with pc := 0x201 } = some (.run, none, 0x203) := by decide
/-- T-D7. -/
theorem test_decode_error : failed 0x0123 start =
    some (.halted, some { pcFetch := some 0x200, info := .decodeError 0x0123 0x200 }, 0x200) := by decide
/-- T-D15, T-B4. -/
theorem test_gates : step { start with status := .halted } = .fault (.halted none) ∧
    step { start with status := .unloaded } = .refused .cycleUnloaded := ⟨rfl, rfl⟩

/-- T-C1. -/
theorem test_ret : (after 0x00EE { start with sp := 2, stack := (start.stack.set 0 0x206).set 1 0x30A }).map
    (fun t => (t.pc, t.sp)) = some (0x30A, 1) := by decide
/-- T-C2. -/
theorem test_ret_empty : failed 0x00EE start =
    some (.halted, some { pcFetch := some 0x200, info := .stackUnderflow }, 0x200) := by decide
/-- T-C3. -/
theorem test_jp : (after 0x1FFF start).map (fun t => t.pc) = some 0xFFF := by decide
/-- T-C4. -/
theorem test_call : (after 0x2300 { start with sp := 15 }).map (fun t => (t.stack[15], t.sp, t.pc)) =
    some (0x202, 16, 0x300) := by decide
/-- T-C5. -/
theorem test_call_full : failed 0x2300 { start with sp := 16 } =
    some (.halted, some { pcFetch := some 0x200, info := .stackOverflow 0x202 }, 0x200) := by decide
/-- T-C6, T-C7. -/
theorem test_seByte : (after 0x3342 (withRegs [(3, 0x42)] start)).map (fun t => t.pc) = some 0x204 ∧
    (after 0x3342 (withRegs [(3, 0x41)] start)).map (fun t => t.pc) = some 0x202 := by decide
/-- T-C8 and the example of R108. -/
theorem test_sneByte : (after 0x4342 (withRegs [(3, 0x42)] start)).map (fun t => t.pc) = some 0x202 ∧
    (after 0x4342 (withRegs [(3, 0x41)] start)).map (fun t => t.pc) = some 0x204 := by decide
/-- T-C9; the second with unequal registers (R109). -/
theorem test_seReg : (after 0x5120 (withRegs [(1, 7), (2, 7)] start)).map (fun t => t.pc) = some 0x204 ∧
    (after 0x5120 (withRegs [(1, 7), (2, 8)] start)).map (fun t => t.pc) = some 0x202 := by decide
/-- T-C11, T-C12. -/
theorem test_sneReg : (after 0x9110 start).map (fun t => t.pc) = some 0x202 ∧
    (after 0x9120 (withRegs [(1, 7), (2, 8)] start)).map (fun t => t.pc) = some 0x204 := by decide
/-- T-C16, T-C17. -/
theorem test_jpV0 : (after 0xBFFF (withRegs [(0, 0xFF)] start)).map (fun t => t.pc) = some 0x10FE ∧
    (after 0xBE00 (withRegs [(0, 1), (14, 0x55)] start)).map (fun t => t.pc) = some 0xE01 := by decide

/-- The values of `V1` and `VF` after a step. -/
def v1vf (o : Option State) : Option (Byte × Byte) := o.map fun t => (t.reg 1, t.reg 15)

/-- The start state with other parameters. -/
def withParams (f : Params → Params) (s : State) : State := { s with params := f s.params }

/-- T-A1. -/
theorem test_ldByte : v1vf (after 0x6F12 start) = some (0, 0x12) := by decide
/-- T-A2, L1-1. -/
theorem test_addByte : v1vf (after 0x7FFF start) = some (0, 0xFF) ∧
    v1vf (after 0x7102 (withRegs [(1, 0xFF)] start)) = some (1, 0) := by decide
/-- T-A4. -/
theorem test_ldReg : v1vf (after 0x8120 (withRegs [(2, 0x33)] start)) = some (0x33, 0) := by decide
/-- T-A5. -/
theorem test_orReg : v1vf (after 0x81F1 (withRegs [(1, 0x0F), (15, 0xF0)] start)) = some (0xFF, 0xF0) := by decide
/-- T-A6. -/
theorem test_andReg : v1vf (after 0x8122 (withRegs [(1, 0x3C), (2, 0x0F)] start)) = some (0x0C, 0) := by decide
/-- T-A7, T-A8. -/
theorem test_xorReg : v1vf (after 0x8123 (withRegs [(1, 0xAA), (2, 0x55)] start)) = some (0xFF, 0) ∧
    v1vf (after 0x8113 (withRegs [(1, 0xAA)] start)) = some (0, 0) := by decide
/-- T-A9, T-A10. -/
theorem test_addReg : v1vf (after 0x8114 (withRegs [(1, 0x80)] start)) = some (0, 1) ∧
    v1vf (after 0x8114 (withRegs [(1, 0x7F)] start)) = some (0xFE, 0) := by decide
/-- T-A11, L1-10. -/
theorem test_addReg_vf : (after 0x8EF4 (withRegs [(14, 0xFF), (15, 1)] start)).map (fun t => (t.reg 14, t.reg 15)) =
      some (0, 1) ∧
    (after 0x8FE4 (withRegs [(14, 0xF5), (15, 0x10)] start)).map (fun t => (t.reg 14, t.reg 15)) = some (0xF5, 1) := by
  decide
/-- T-A12, T-A13, T-A16. -/
theorem test_subReg : v1vf (after 0x8125 start) = some (0, 1) ∧
    v1vf (after 0x8125 (withRegs [(1, 0x10), (2, 0x20)] start)) = some (0xF0, 0) ∧
    v1vf (after 0x8F15 (withRegs [(15, 0x10), (1, 0x20)] start)) = some (0x20, 0) := by decide
/-- T-A14, T-A15. -/
theorem test_subReg_borrow :
    v1vf (after 0x8125 (withParams (fun p => { p with subVf := .borrow }) (withRegs [(1, 0x10), (2, 0x20)] start))) =
      some (0xF0, 1) ∧
    v1vf (after 0x8125 (withParams (fun p => { p with subVf := .borrow }) (withRegs [(1, 5), (2, 5)] start))) =
      some (0, 0) := by decide
/-- T-A18, T-A19. -/
theorem test_subnReg : v1vf (after 0x8127 (withRegs [(1, 0x20), (2, 0x10)] start)) = some (0xF0, 0) ∧
    v1vf (after 0x8F17 (withRegs [(15, 3), (1, 5)] start)) = some (5, 1) := by decide
/-- T-A20, T-A21. -/
theorem test_shrReg : v1vf (after 0x8126 (withRegs [(1, 3), (2, 0x80)] start)) = some (1, 1) ∧
    v1vf (after 0x8126 (withParams (fun p => { p with shiftSrc := .vy }) (withRegs [(1, 3), (2, 0x80)] start))) =
      some (0x40, 0) := by decide
/-- T-A24, T-A25. -/
theorem test_shlReg : v1vf (after 0x812E (withRegs [(1, 0x81), (2, 1)] start)) = some (2, 1) ∧
    v1vf (after 0x812E (withParams (fun p => { p with shiftSrc := .vy }) (withRegs [(1, 0x81), (2, 1)] start))) =
      some (2, 0) := by decide
/-- T-A28. -/
theorem test_rnd : (after 0xC30F { start with inbox := [.cycle 0 0xA7] }).map (fun t => t.reg 3) = some 7 := by decide

/-- The values of `I` and `VF` after a step. -/
def ivf (o : Option State) : Option (Word × Byte) := o.map fun t => (t.i, t.reg 15)

/-- T-M1. -/
theorem test_ldI : ivf (after 0xAFFF start) = some (0xFFF, 0) := by decide
/-- T-M2. -/
theorem test_addIVx : ivf (after 0xF11E (withRegs [(1, 1)] { start with i := 0xFFFF })) = some (0, 0) := by decide
/-- T-M3, T-M5. -/
theorem test_addIVx_overflow :
    ivf (after 0xF11E (withParams (fun p => { p with fx1eVf := .overflowFFF }) (withRegs [(1, 1)] { start with i := 0x0FFF }))) =
      some (0x1000, 1) ∧
    ivf (after 0xFF1E (withParams (fun p => { p with fx1eVf := .overflowFFF }) (withRegs [(15, 0xFF)] { start with i := 0x0100 }))) =
      some (0x01FF, 0) := by decide
/-- T-M6, T-M7. -/
theorem test_ldFVx : ivf (after 0xF129 (withRegs [(1, 0x3A)] start)) = some (0x082, 0) ∧
    ivf (after 0xF129 (withRegs [(1, 0x0F)] start)) = some (0x09B, 0) := by decide
/-- T-M9. -/
theorem test_ldBVx : (after 0xF333 (withRegs [(3, 0xFF)] { start with i := 0x300 })).map
    (fun t => (t.mem.readBytes 0x300 3, t.i)) = some ([2, 5, 5], 0x300) := by decide
/-- T-M11. -/
theorem test_ldBVx_bounds : failed 0xF333 (withRegs [(3, 9)] { start with i := 0xFFE }) =
    some (.halted, some { pcFetch := some 0x200, info := .invariantViolation .memBounds 0x1000 }, 0x200) := by decide
/-- T-M14. -/
theorem test_storeRegs :
    (after 0xF255 (withParams (fun p => { p with ldstI := .incXPlus1 }) (withRegs [(0, 1), (1, 2), (2, 3)] { start with i := 0x300 }))).map
      (fun t => (t.mem.readBytes 0x300 4, t.i)) = some ([1, 2, 3, 0], 0x303) := by decide
/-- T-M13. -/
theorem test_storeRegs_bounds : failed 0xFF55 { start with i := 0xFF1 } =
    some (.halted, some { pcFetch := some 0x200, info := .invariantViolation .memBounds 0x1000 }, 0x200) := by decide
/-- T-M16. -/
theorem test_loadRegs : (after 0xF265 (withMem 0x300 [9, 8, 7, 6] { start with i := 0x300 })).map
    (fun t => (t.regsUpTo 3, t.i)) = some ([9, 8, 7, 0], 0x300) := by decide
/-- T-M18. -/
theorem test_loadRegs_bounds : failed 0xF065 { start with i := 0xFFFF } =
    some (.halted, some { pcFetch := some 0x200, info := .invariantViolation .memBounds 0xFFFF }, 0x200) := by decide

/-- The set pixels of a row after a step, and `VF`. -/
def rowVf (y : Fin 32) (o : Option State) : Option (List Nat × Byte) :=
  o.map fun t => (((List.finRange 64).filter fun x => t.fb.pixel (x, y)).map Fin.val, t.reg 15)

/-- The start state with one set pixel. -/
def withPixel (p : Pixel) (s : State) : State := { s with fb := s.fb.flip p }

/-- T-G1. -/
theorem test_cls : rowVf 3 (after 0x00E0 (withRegs [(15, 7)] (withPixel (5, 3) start))) = some ([], 7) := by decide
/-- T-G4, T-G11. -/
theorem test_drw :
    rowVf 0 (after 0xD011 (withRegs [(0, 60)] (withMem 0x300 [0xFF] { start with i := 0x300 }))) =
      some ([0, 1, 2, 3, 60, 61, 62, 63], 0) ∧
    rowVf 0 (after 0xD011 (withPixel (1, 0) (withMem 0x300 [0xC0] { start with i := 0x300 }))) = some ([0], 1) := by
  decide
/-- T-G7, T-G9. -/
theorem test_drw_bounds : rowVf 0 (after 0xD010 { start with i := 0xFFFF }) = some ([], 0) ∧
    failed 0xD01F { start with i := 0xFF2 } =
      some (.halted, some { pcFetch := some 0x200, info := .invariantViolation .memBounds 0x1000 }, 0x200) := by decide

/-- T-K1, T-K2. -/
theorem test_skp :
    (after 0xE59E (withRegs [(5, 0x0A)] { start with inbox := [.cycle 0x0400 0] })).map (fun t => t.pc) = some 0x204 ∧
    (after 0xE59E (withRegs [(5, 0x0A)] start)).map (fun t => t.pc) = some 0x202 := by decide
/-- T-K4, T-K5. -/
theorem test_skp_index :
    failed 0xE59E (withRegs [(5, 0x10)] { start with inbox := [.cycle 1 0] }) =
      some (.halted, some { pcFetch := some 0x200, info := .invariantViolation .keyIndex 0x10 }, 0x200) ∧
    (after 0xE59E (withParams (fun p => { p with keyIndex := .lowNibble })
      (withRegs [(5, 0x10)] { start with inbox := [.cycle 1 0] }))).map (fun t => t.pc) = some 0x204 := by decide
/-- T-K3. -/
theorem test_sknp : (after 0xE5A1 (withRegs [(5, 0x0A)] start)).map (fun t => t.pc) = some 0x204 := by decide
/-- T-K12. -/
theorem test_ldVxDT : (after 0xF307 { start with dt := 0x3C }).map (fun t => t.reg 3) = some 0x3C := by decide
/-- T-K13. -/
theorem test_ldDTVx : (after 0xF015 (withRegs [(0, 5)] start)).map (fun t => t.dt) = some 5 := by decide
/-- T-K14. -/
theorem test_ldSTVx : (after 0xF018 (withRegs [(0, 2)] start)).map (fun t => (t.st, t.soundActive)) = some (2, true) := by
  decide
/-- T-K6, T-K7. -/
theorem test_ldVxK_wait :
    (after 0xF00A { start with inbox := [.cycle 0x0020 0] }).map (fun t => (t.pc, t.kwActive, t.kwMask)) =
      some (0x200, true, 0x0020) ∧
    (after 0xF00A { start with kwActive := true, kwMask := 0x0020, inbox := [.cycle 0x0020 0] }).map
      (fun t => (t.pc, t.kwActive)) = some (0x200, true) := by decide
/-- T-K11, T-K10. -/
theorem test_ldVxK_done :
    (after 0xF00A { start with kwActive := true, inbox := [.cycle 0x0220 0] }).map
      (fun t => (t.reg 0, t.pc, t.kwActive)) = some (5, 0x202, false) ∧
    (after 0xF00A (withParams (fun p => { p with keyTrigger := .level }) { start with inbox := [.cycle 0x0020 0] })).map
      (fun t => (t.reg 0, t.pc)) = some (5, 0x202) := by decide

/-! ## The host's transitions -/

/-- The state after one step. -/
def next (s : State) : Option State :=
  match step s with
  | .next t => some t
  | .fault _ => none
  | .refused _ => none

/-- T-K15, T-K17. -/
theorem test_timerStep :
    (next { start with st := 3, inbox := [.timerStep] }).map (fun t => (t.dt, t.st)) = some (0, 2) ∧
    (next { start with dt := 2, status := .halted, inbox := [.timerStep] }).map (fun t => t.dt) = some 1 := by decide
/-- T-B1. -/
theorem test_load_empty : (next { State.reset with inbox := [.load []] }).map (fun t => (t.status, t.err)) =
    some (.halted, some { pcFetch := none, info := .loadError .empty 0 }) := by decide
/-- T-B2. -/
theorem test_load : (next { State.reset with inbox := [.load [0x12, 0x00]] }).map
    (fun t => (t.mem.readBytes 0x200 2, t.mem.read 0x050, t.pc, t.status)) = some ([0x12, 0], 0xF0, 0x200, .run) := by
  decide
/-- T-B3. -/
theorem test_load_twice : step { start with inbox := [.load [0x12]] } = .refused .loadNotUnloaded := rfl
/-- L1-7. -/
theorem test_load_too_large : loadReason (List.replicate 3585 0) = some .tooLarge ∧
    loadReason (List.replicate 3584 0) = none := by
  rw [loadReason, loadReason, List.length_replicate, List.length_replicate]; exact ⟨rfl, rfl⟩
/-- The numeric codes of R202. -/
theorem test_codes : ({ pcFetch := none, info := .loadError .empty 0 } : ErrorRecord).code = 1 ∧
    ({ pcFetch := some 0x200, info := .stackUnderflow } : ErrorRecord).code = 5 ∧
    ({ pcFetch := some 0x200, info := .stackUnderflow } : ErrorRecord).className = "StackUnderflow" := by decide
/-- The interface places the word where the next step fetches, from reset. -/
theorem test_withFetchWord : (next (State.reset.withFetchWord 16 0x6A7B)).map (fun t => (t.reg 10, t.pc)) =
    some (0x7B, 0x202) := by decide

/-! ## Witnesses: states and operands that meet the hypotheses of the obligations, every clause at a boundary of its range -/

/-- A state in `RUN` with no transition pending and a word at its `pc`. -/
def idleAt (a : Nat) (w : Word) (s : State) : State :=
  { s with status := .run, inbox := [], pc := BitVec.ofNat 16 a, mem := s.mem.writeBytes a (wordBytes w) }

/-- The same with a cycle queued. -/
def queuedAt (a : Nat) (w : Word) (s : State) : State := { idleAt a w s with inbox := [.cycle 0 0] }

theorem witness_EncodeDecodeRoundTrip : decode 0x8124 = .ok (.addReg 1 2) := by decide

theorem witness_OpcodeRowsDoNotOverlap :
    (⟨"RET", 0xFFFF, 0x00EE⟩ : WellFormed.Row) ∈ WellFormed.opcodeRows ∧
      (⟨"RET", 0xFFFF, 0x00EE⟩ : WellFormed.Row).matchesWord 0x00EE = true := by decide

theorem witness_StepRunsDecodedInstruction :
    (idleAt 0xFFE 0x1234 start).status = .run ∧ (idleAt 0xFFE 0x1234 start).pc.toNat + 1 < 4096 ∧
    decode (wordAt (idleAt 0xFFE 0x1234 start) 0xFFE) = .ok (.jp 0x234) ∧ (idleAt 0xFFE 0x1234 start).inbox = [] ∧
    (queuedAt 0xFFE 0x1234 start).inbox = [.cycle 0 0] := by decide

/-- StepStopsOnlyAtTheGates: a load pending in `RUN` and in `HALTED`. -/
theorem witness_StepStopsOnlyAtTheGates :
    ({ start with inbox := [.load [0x12]] } : State).status ≠ .unloaded ∧
    ({ start with status := .halted, inbox := [.load [0x12]] } : State).status ≠ .unloaded := by decide

/-- `running`, each way. -/
theorem witness_running : running (idleAt 0x200 0x00E0 start) ∧ running (queuedAt 0x200 0x00E0 start) :=
  ⟨⟨rfl, .inl rfl⟩, rfl, .inr ⟨0, 0, [], rfl⟩⟩

theorem witness_FetchChecksAndAdvances :
    4096 ≤ ({ start with pc := 0xFFF } : State).pc.toNat + 1 ∧ ({ start with pc := 0xFFE } : State).pc.toNat + 1 < 4096 ∧
    (next { start with pc := 0xFFF }).map (fun t => t.status) = some .halted := by decide

theorem witness_IllegalWordHaltsWithDecodeError :
    (idleAt 0xFFE 0x0000 start).pc.toNat + 1 < 4096 ∧
    WellFormed.legalWord (wordAt (idleAt 0xFFE 0x0000 start) 0xFFE) = false := by decide

/-- A fatal error in the execute phase. -/
theorem witness_FatalErrorCommitsNothing :
    (next (queuedAt 0x200 0x00EE start)).map (fun t => (t.status, t.pc)) = some (.halted, 0x200) := by decide

theorem witness_CycleNeedsRun :
    State.reset.inbox = [] ∧ State.reset.status = .unloaded ∧
    ({ start with status := .halted } : State).inbox = [.cycle 0 0] := by decide

theorem witness_HaltedIsFinal :
    (next { start with status := .halted, inbox := [.timerStep] }).isSome = true ∧
    (next { start with status := .halted, inbox := [.setKeys 1] }).isSome = true := by decide

/-- From reset, and with a `pc` where no word can be fetched. -/
theorem witness_PlacedWordRunsNext :
    State.reset.mem.wf = true ∧ fetchSlot State.reset = 0x200 ∧ fetchSlot { State.reset with pc := 0xFFF } = 0x200 ∧
    fetchSlot { State.reset with pc := 0xFFE } = 0xFFE := by decide

theorem witness_TimerStepCountsDown : ({ start with inbox := [.timerStep] } : State).inbox = .timerStep :: [] := rfl

/-- The shortest and the longest image. -/
theorem witness_LoadPlacesImageAtEntry :
    State.reset.status = .unloaded ∧ State.reset.mem.wf = true ∧
    0 < (List.replicate 1 (0x12 : Byte)).length ∧ (List.replicate 3584 (0x12 : Byte)).length ≤ 3584 := by
  rw [List.length_replicate, List.length_replicate]; decide

theorem witness_BadImageHaltsWithLoadError :
    State.reset.status = .unloaded ∧ 3584 < (List.replicate 3585 (0x12 : Byte)).length ∧ ([] : List Byte).length = 0 := by
  rw [List.length_replicate]; decide

theorem witness_CallPushesReturnAddress :
    ({ start with sp := 15 } : State).sp.val < 16 ∧ ({ start with sp := 16 } : State).sp.val = 16 := by decide

theorem witness_ReturnPopsIntoPc :
    ({ start with sp := 1 } : State).sp.val = (0 : Fin 16).val + 1 ∧
    ({ start with sp := 16 } : State).sp.val = (15 : Fin 16).val + 1 ∧ start.sp.val = 0 := by decide

theorem witness_StackErrorsCommitNothing : ({ start with sp := 16 } : State).sp.val = 16 ∧ start.sp.val = 0 := by decide

/-- The call at 0x204 of L1-3. -/
theorem witness_CallThenReturnComesBack :
    (idleAt 0x204 0x2300 (withMem 0x300 [0x00, 0xEE] start)).sp.val < 16 ∧
    wordAt (idleAt 0x204 0x2300 (withMem 0x300 [0x00, 0xEE] start)) 0x204 = wordNNN 0x2 0x300 ∧
    wordAt (idleAt 0x204 0x2300 (withMem 0x300 [0x00, 0xEE] start)) 0x300 = 0x00EE ∧
    (0x300 : Imm12).toNat + 1 < 4096 := by decide

/-- AddSetsCarry, SubtractionsSetFlag, ShiftsCaptureBit: a destination that is not `VF`, both settings of `P_SUB_VF` and of
`P_SHIFT_SRC`. -/
theorem witness_flag_parameters :
    (1 : Reg) ≠ 15 ∧ start.params.subVf = .notBorrow ∧
    (withParams (fun p => { p with subVf := .borrow }) start).params.subVf = .borrow ∧
    start.reg 1 = (if start.params.shiftSrc = .vx then start.reg 1 else start.reg 2) ∧
    (withParams (fun p => { p with shiftSrc := .vy }) start).params.shiftSrc ≠ .vx := by decide

theorem witness_RandomByteIsMasked :
    (idleAt 0xFFE 0xC30F start).status = .run ∧ (idleAt 0xFFE 0xC30F start).inbox = [] ∧
    (idleAt 0xFFE 0xC30F start).pc.toNat + 1 < 4096 ∧
    wordAt (idleAt 0xFFE 0xC30F start) 0xFFE = wordXKK 0xC 3 0x0F := by decide

theorem witness_AddToIndex :
    start.params.fx1eVf = .unchanged ∧
    (withParams (fun p => { p with fx1eVf := .overflowFFF }) start).params.fx1eVf = .overflowFFF := by decide

theorem witness_GlyphAddressOfLowNibble : start.params.fontGlyphBytes = 5 := rfl

theorem witness_BcdStoresThreeDigits :
    start.mem.wf = true ∧ ({ start with i := 0xFFD } : State).i.toNat + 2 < 4096 := by decide

theorem witness_BlockStoreWritesRegisters :
    start.mem.wf = true ∧ ({ start with i := 0xFF0 } : State).i.toNat + (15 : Reg).val < 4096 := by decide

theorem witness_BlockLoadReadsRegisters :
    ({ start with i := 0xFFF } : State).i.toNat + (0 : Reg).val < 4096 := by decide

/-- Each of the four instructions just out of range. -/
theorem witness_OutOfRangeAccessHalts :
    4096 < ({ start with i := 0xFFE } : State).i.toNat + 3 ∧
    4096 < ({ start with i := 0xFF1 } : State).i.toNat + ((15 : Reg).val + 1) ∧
    4096 < ({ start with i := 0xFF2 } : State).i.toNat + (15 : Fin 16).val ∧ (15 : Fin 16) ≠ 0 := by decide

/-- FX55 and FX33 over both bytes of the next word, its second byte alone and its first byte alone, up to the last word of memory. -/
theorem witness_NextFetchSeesBlockStore :
    start.mem.wf = true ∧ ({ start with pc := 0xFFE } : State).pc.toNat + 1 < 4096 ∧
    ({ start with i := 0xFFE } : State).i.toNat + (1 : Reg).val < 4096 ∧
    ({ start with i := 0xFFD } : State).i.toNat + 2 < 4096 ∧
    overlaid { start with i := 0xFFF } 1 (fun _ => 7) 0xFFE = 0 ∧ overlaid { start with i := 0xFFF } 1 (fun _ => 7) 0xFFF = 7 ∧
    overlaid { start with i := 0xFFC } 3 (fun k => k + 1) 0xFFE = 3 ∧
    overlaid { start with i := 0xFFC } 3 (fun k => k + 1) 0xFFF = 0 := by decide

/-- No row, the last rows of memory, one row too many; a pixel the sprite at 0x050 touches (glyph 0, bit 7 of row 0) and one it does
not. -/
theorem witness_DrawTogglesSpritePixels :
    ({ start with i := 0xFF1 } : State).i.toNat + (15 : Fin 16).val ≤ 4096 ∧
    4096 < ({ start with i := 0xFF2 } : State).i.toNat + (15 : Fin 16).val ∧
    (({ start with i := 0x050 } : State).mem.read 0x050).getLsbD (7 - 0) = true ∧
    (({ start with i := 0x050 } : State).mem.read 0x050).getLsbD (7 - 7) = false := by decide

/-- A sprite, and no row with `I` above the memory. -/
theorem witness_DrawTwiceRestores :
    (∃ t u, exec (.drw 0 1 5) { start with i := 0x050 } = .next t ∧ exec (.drw 0 1 5) t = .next u) ∧
    ∃ t u, exec (.drw 0 1 0) { start with i := 0xFFFF } = .next t ∧ exec (.drw 0 1 0) t = .next u :=
  ⟨⟨_, _, rfl, rfl⟩, _, _, rfl, rfl⟩

theorem witness_KeySkipsTestKey :
    ((withRegs [(5, 15)] start).reg 5).toNat < 16 ∧
    (withParams (fun p => { p with keyIndex := .lowNibble }) start).params.keyIndex = .lowNibble ∧
    16 ≤ ((withRegs [(5, 16)] start).reg 5).toNat ∧ start.params.keyIndex = .fault := by decide

theorem witness_TimerReadsAndWrites : ((withRegs [(1, 1)] start).reg 1).toNat = 1 := by decide

/-- Key 15 alone under each trigger, key 5 the lowest of two. -/
theorem witness_KeyWaitCompletesWithLowestKey :
    keyIsNew { start with kwActive := true, keys := 0x8000 } 15 ∧
    keyIsNew (withParams (fun p => { p with keyTrigger := .level }) { start with keys := 0x8000 }) 15 ∧
    keyIsNew { start with kwActive := true, keys := 0x0220 } 5 ∧
    ∀ j, j < 5 → ¬keyIsNew { start with kwActive := true, keys := 0x0220 } j := by
  refine ⟨⟨rfl, .inr ⟨rfl, rfl⟩⟩, ⟨rfl, .inl rfl⟩, ⟨rfl, .inr ⟨rfl, rfl⟩⟩, fun j hj h => ?_⟩
  have : ∀ j, j < 5 → (0x0220 : KeyState).getLsbD j = false := by decide
  exact absurd h.1 (by rw [show ({ start with kwActive := true, keys := 0x0220 } : State).keys = 0x0220 from rfl, this j hj]; decide)

/-- A key held since before the wait does not complete it. -/
theorem witness_KeyWaitReenters : ∀ k, k < 16 → ¬keyIsNew { start with keys := 0x0020 } k := by
  rintro k - ⟨-, h | ⟨h, -⟩⟩ <;> cases h

theorem witness_KeyWaitSuspendsThenResumes :
    wordAt (idleAt 0xFFE 0xF00A start) 0xFFE = wordXKK 0xF 0 0x0A ∧ start.params.keyTrigger = .pressEdge ∧
    start.kwActive = false ∧ (0x0220 : KeyState).getLsbD 5 = true ∧ ∀ j, j < 5 → (0x0220 : KeyState).getLsbD j = false := by
  decide

theorem witness_ConstructionSetsResetValues : Params.default.resetRegs = .zero := rfl

/-- A key update in `RUN` with an `E59E` at the last word of memory, and in `HALTED`. -/
theorem witness_KeyUpdateSetsKeysOnly :
    (wordAt { idleAt 0xFFE 0xE59E (withRegs [(5, 15)] start) with inbox := [.setKeys 0x8000] } 0xFFE = wordXKK 0xE 5 0x9E) ∧
    ((withRegs [(5, 15)] start).reg 5).toNat < 16 ∧
    (next { start with status := .halted, inbox := [.setKeys 0x8000] }).map (fun t => t.keys) = some 0x8000 := by decide

/-- HostNeverWritesMemoryAfterLoad: a cycle in `RUN` whose store changes memory. -/
theorem witness_HostNeverWritesMemoryAfterLoad :
    (queuedAt 0x200 0xF055 (withRegs [(0, 1)] start)).status ≠ .unloaded ∧
    (next (queuedAt 0x200 0xF055 (withRegs [(0, 1)] start))).map (fun t => t.mem.read 0) = some 1 ∧
    (queuedAt 0x200 0xF055 (withRegs [(0, 1)] start)).mem.read 0 = 0 := by decide

/-- OnlyListedInstructionsWriteVF, OnlyListedInstructionsWriteState: a writer of `VF` and one of each
piece of state. -/
theorem witness_writers :
    (next (queuedAt 0x200 0x6F01 start)).map (fun t => t.reg 15) = some 1 ∧
    (next (queuedAt 0x200 0xF055 (withRegs [(0, 1)] start))).map (fun t => t.mem.read 0) = some 1 ∧
    (next (queuedAt 0x200 0xA300 start)).map (fun t => t.i) = some 0x300 ∧
    (next (queuedAt 0x200 0x2300 start)).map (fun t => t.sp) = some 1 ∧
    (next (queuedAt 0x200 0xF015 (withRegs [(0, 1)] start))).map (fun t => t.dt) = some 1 ∧
    (next (queuedAt 0x200 0xF018 (withRegs [(0, 1)] start))).map (fun t => t.st) = some 1 ∧
    (next (queuedAt 0x200 0xF00A start)).map (fun t => t.kwActive) = some true := by decide

theorem witness_framebuffer_writer : rowVf 0 (next (queuedAt 0x200 0xD001 { start with i := 0x050 })) =
    some ([0, 1, 2, 3], 0) := by decide

/-- StepKeepsMemCanonical, StepKeepsPcBounded, StepKeepsErrIffHalted (with the theorem below, the other two): a step from reset, which
meets every invariant, that answers a next state. -/
theorem witness_invariants :
    State.reset.MemCanonical ∧ State.reset.PcBounded ∧ State.reset.ErrIffHalted ∧
    (next { State.reset with inbox := [.load [0x00, 0xE0]] }).isSome = true := by
  refine ⟨rfl, ⟨by decide, by decide⟩, ⟨?_, ?_⟩, by decide⟩ <;> (intro h; cases h)

/-- StepKeepsKeyWaitClear, StepKeepsUntouchedBeforeLoad. -/
theorem witness_invariants_at_reset : State.reset.KeyWaitClear ∧ State.reset.UntouchedBeforeLoad :=
  ⟨fun _ => rfl, fun _ => ⟨rfl, rfl, rfl⟩⟩

end Sys2Proof.Tests
end

section
/-! PROOFS. The host's key update, and the lemmas that lead from the word at `pc` to the instruction a driver cycle executes. -/

namespace Sys2Proof.Machine

open Sys2Proof.Spec

/-! ## From the word at an address to the instruction executed -/

/-- The numeric word of format `XKK` is the packed one (30_encoding.md R73). -/
theorem wordXKK_eq_packXKK (op : BitVec 4) (x : Reg) (kk : Byte) : wordXKK op.toNat x kk.toNat = packXKK op x kk := by
  apply BitVec.eq_of_toNat_eq
  rw [packXKK_toNat, wordXKK, BitVec.toNat_ofNat]
  omega

/-- The bytes a fetch composes are the word at that address (30_encoding.md R71). -/
theorem composeWord_read (s : State) (a : Nat) : composeWord (s.mem.read a) (s.mem.read (a + 1)) = wordAt s a := by
  apply BitVec.eq_of_toNat_eq
  rw [composeWord_toNat, wordAt, BitVec.toNat_ofNat]
  omega

/-- With a word that decodes at an address in range, fetch and decode lead to its instruction (30_encoding.md R76). -/
theorem fetchDecodeExecute_of_decode {s : State} {i : Instr} (hpc : s.pc.toNat + 1 < 4096)
    (hi : decode (wordAt s s.pc.toNat) = .ok i) : fetchDecodeExecute s = exec i s.advanced := by
  rw [fetchDecodeExecute, fetchAt_ok hpc, composeWord_read]
  simp only [hi]

/-! ## `EX9E` with a key number 0 to 15 -/

/-- `EX9E` decodes to `SKP Vx` (30_encoding.md R79). -/
theorem decode_wordXKK_skp (x : Reg) : decode (wordXKK 0xE x 0x9E) = .ok (.skp x) := by
  have hw : wordXKK 0xE x 0x9E = packXKK 0xE x 0x9E := wordXKK_eq_packXKK 0xE x 0x9E
  rw [hw, decode_packXKK _ _ _ (by decide)]
  simp [decodeFamily, decodeFamilyE]

/-- `SKP Vx` with a key number 0 to 15 skips exactly when that key is pressed (44_timers_keys.md R181). -/
theorem exec_skp_of_lt {s : State} {x : Reg} (hx : (s.reg x).toNat < 16) :
    exec (.skp x) s = .next (s.skipIf (s.keyPressed (s.reg x).toNat)) := by
  rw [exec, execSkp, skipOnKey_eq (s.keyIndex_of_lt hx), beq_true]

/-- A skip is visible in `pc`: from the fetch address plus 2 it leads to plus 4 exactly when it is taken
(40_control_flow.md R106). -/
theorem skipIf_advanced_pc_eq (s : State) (c : Bool) : (s.advanced.skipIf c).pc = s.pc + 4 ↔ c = true := by
  have taken : s.pc + 2 + 2 = s.pc + 4 := by bv_omega
  cases c
  · simp
  · simpa using taken

/-- Fetch, decode and execute at an `EX9E` with a key number 0 to 15. -/
theorem fetchDecodeExecute_skp {s : State} {x : Reg} (hpc : s.pc.toNat + 1 < 4096)
    (hw : wordAt s s.pc.toNat = wordXKK 0xE x 0x9E) (hx : (s.reg x).toNat < 16) :
    fetchDecodeExecute s = .next (s.advanced.skipIf (s.keyPressed (s.reg x).toNat)) :=
  (fetchDecodeExecute_of_decode hpc (hw ▸ decode_wordXKK_skp x)).trans (exec_skp_of_lt (s := s.advanced) hx)

/-- A driver cycle at an `EX9E` with a key number 0 to 15 skips exactly when that key is pressed in the keys as they stand. -/
theorem step_idle_skp {s : State} {x : Reg} (hr : s.status = .run) (hq : s.inbox = []) (hpc : s.pc.toNat + 1 < 4096)
    (hw : wordAt s s.pc.toNat = wordXKK 0xE x 0x9E) (hx : (s.reg x).toNat < 16) :
    ∃ u, step s = .next u ∧ (u.pc = s.pc + 4 ↔ s.keyPressed (s.reg x).toNat = true) :=
  ⟨_, (step_idle_run hr hq).trans (fetchDecodeExecute_skp hpc hw hx), skipIf_advanced_pc_eq _ _⟩

/-! ## The key update -/

/-- A queued key update replaces `KEYS` and leaves the queue, in every `STATUS` (60_exceptions.md R223). -/
theorem step_setKeys {s : State} {k : KeyState} {rest : List HostMove} (hq : s.inbox = .setKeys k :: rest) :
    step s = .next { s with keys := k, inbox := rest } :=
  step_move hq

/-- Settles O60: the step is the queued update itself, and the cycle after it is a driver cycle at the `EX9E`, which tests the
keys just set. -/
theorem keyUpdateSetsKeysOnly : Obligations.KeyUpdateSetsKeysOnly := by
  intro s k rest hq
  refine ⟨{ s with keys := k, inbox := rest }, step_setKeys hq, fun _ _ => rfl, rfl, ?_⟩
  intro x hr hrest hpc hw hx
  exact step_idle_skp (s := { s with keys := k, inbox := rest }) hr hrest hpc hw hx

end Sys2Proof.Machine
end

section
/-! PROOFS. The program load, and a block store that the next fetch reads back. -/

namespace Sys2Proof.Machine

open Sys2Proof.Spec

/-! ## The program load (70_reset_and_hazards.md R241) -/

/-- An image of 1 to 3584 bytes passes the check of the load (60_exceptions.md R205). -/
theorem loadReason_eq_none {image : List Byte} (h0 : 0 < image.length) (hmax : image.length ≤ 3584) :
    loadReason image = none := by
  rw [loadReason, if_neg (by simp only [Config.maxImage]; omega), if_neg (by omega)]

/-- A load that passes its check writes the image at the entry point, `pc` and `STATUS` (70_reset_and_hazards.md R241). -/
theorem loadImage_ok {s : State} {image : List Byte} (hs : s.status = .unloaded) (h0 : 0 < image.length)
    (hmax : image.length ≤ 3584) :
    loadImage image s = .next { s with mem := s.mem.writeBytes 0x200 image, pc := 0x200, status := .run } := by
  simp only [loadImage, hs, loadReason_eq_none h0 hmax]
  rfl

/-- Settles O17: the step is the queued load, and its memory clauses are read after write for a block that ends at or below the
top of memory. -/
theorem loadPlacesImageAtEntry : Obligations.LoadPlacesImageAtEntry := by
  intro s image rest hs hwf hq h0 hmax
  have hread := Memory.read_writeBytes (bs := image) (a := 0x200) hwf (by simp only [Config.memSize]; omega)
  refine ⟨_, (step_move hq).trans (loadImage_ok (s := { s with inbox := rest }) hs h0 hmax), ?placed, ?kept, rfl⟩
  case placed =>
    intro j hj
    exact (hread _).trans (by rw [if_pos (by omega), Nat.add_sub_cancel_left])
  case kept =>
    intro a ha
    exact (hread a).trans (if_neg ha)

/-! ## A block store and the fetch after it (20_memory.md R67) -/

/-- A fetch in range, by the numbers its two bytes hold (30_encoding.md R71, R77). -/
theorem fetchAt_toNat {m : Memory} {a : Word} (h : a.toNat + 1 < 4096) :
    ∃ w, fetchAt m a = some w ∧ w.toNat = (m.read a.toNat).toNat * 256 + (m.read (a.toNat + 1)).toNat :=
  ⟨_, fetchAt_ok h, composeWord_toNat _ _⟩

/-- Memory after a block store in range is the overlay of its bytes on the old memory. -/
theorem read_storeBytes_eq_overlaid {s : State} {bs : List Byte} {n : Nat} {f : Nat → Nat} (hwf : s.mem.wf = true)
    (hlen : bs.length = n) (hb : s.i.toNat + n ≤ 4096) (hf : ∀ k, k < n → (bs.getD k 0).toNat = f k) (a : Nat) :
    ((s.storeBytes bs).mem.read a).toNat = overlaid s n f a := by
  subst hlen
  rw [State.storeBytes_mem, Memory.read_writeBytes hwf hb, overlaid]
  split
  · exact hf _ (by omega)
  · rfl

/-- A fetch after a block store in range composes the word of the overlay (70_reset_and_hazards.md R249). -/
theorem fetchAt_storeBytes {s : State} {bs : List Byte} {n : Nat} {f : Nat → Nat} (hwf : s.mem.wf = true)
    (hpc : s.pc.toNat + 1 < 4096) (hlen : bs.length = n) (hb : s.i.toNat + n ≤ 4096)
    (hf : ∀ k, k < n → (bs.getD k 0).toNat = f k) :
    ∃ w, fetchAt (s.storeBytes bs).mem s.pc = some w ∧
      w.toNat = overlaid s n f s.pc.toNat * 256 + overlaid s n f (s.pc.toNat + 1) := by
  obtain ⟨w, hw, hval⟩ := fetchAt_toNat (m := (s.storeBytes bs).mem) hpc
  have hread := read_storeBytes_eq_overlaid hwf hlen hb hf
  exact ⟨w, hw, by rw [hval, hread, hread]⟩

/-- `FX55` in range: the registers at `I` upwards, then `UpdateI` (42_index_memory.md R156, R157). -/
theorem exec_storeRegs_ok {s : State} {x : Reg} (h : s.i.toNat + x.val < 4096) :
    exec (.storeRegs x) s = .next ((s.storeBytes (s.regsUpTo x)).updateI x) := by
  rw [exec, execStoreRegs, guardBounds_ok _ (by omega)]

/-- `FX33` in range: the three digits at `I` upwards (42_index_memory.md R154). -/
theorem exec_ldBVx_ok {s : State} {x : Reg} (h : s.i.toNat + 2 < 4096) :
    exec (.ldBVx x) s = .next (s.storeBytes (bcdDigits (s.reg x))) := by
  rw [exec, execLdBVx, guardBounds_ok _ (by omega)]

/-- Byte `k` of a block store, as a number. -/
theorem regsUpTo_getD_toNat (s : State) (x : Reg) {k : Nat} (hk : k < x.val + 1) :
    ((s.regsUpTo x).getD k 0).toNat = (s.reg (Fin.ofNat 16 k)).toNat := by
  have hval : (Fin.ofNat 16 k).val = k := Nat.mod_eq_of_lt (by omega)
  rw [← State.regsUpTo_getD s x (Fin.ofNat 16 k) (by omega), hval]

/-- Digit `k` of the three, hundreds first (42_index_memory.md R154). -/
theorem bcdDigits_getD_toNat (b : Byte) {k : Nat} (hk : k < 3) :
    ((bcdDigits b).getD k 0).toNat = b.toNat / 10 ^ (2 - k) % 10 := by
  obtain ⟨h0, h1, h2⟩ := bcdDigits_toNat b
  have := b.isLt
  interval_cases k
  · rw [h0]; omega
  · rw [h1]; omega
  · rw [h2]; omega

/-- Settles O40: neither store writes `pc`, and the fetch at `pc` reads the overlay of the stored bytes. -/
theorem nextFetchSeesBlockStore : Obligations.NextFetchSeesBlockStore := by
  intro s x hwf hpc
  constructor
  · intro hb
    obtain ⟨w, hw, hval⟩ :=
      fetchAt_storeBytes hwf hpc (s.regsUpTo_length x) (by omega) (fun _ hk => regsUpTo_getD_toNat s x hk)
    exact ⟨_, w, exec_storeRegs_ok hb, by simp, by simpa using hw, hval⟩
  · intro hb
    obtain ⟨w, hw, hval⟩ :=
      fetchAt_storeBytes hwf hpc (bcdDigits_length (s.reg x)) (by omega) (fun _ hk => bcdDigits_getD_toNat _ hk)
    exact ⟨_, w, exec_ldBVx_ok hb, rfl, hw, hval⟩

end Sys2Proof.Machine
end

section
/-! PROOFS. Rules the instruction proofs share: a numeric word is an encoding, and which registers a write keeps. -/

namespace Sys2Proof.Machine

open Sys2Proof.Spec

/-! ## From a word written as a number to its instruction (30_encoding.md R73, R79) -/

/-- The numeric word of format `NNN` is the packed one. -/
theorem wordNNN_eq_packNNN (op : BitVec 4) (nnn : Imm12) : wordNNN op.toNat nnn = packNNN op nnn := by
  apply BitVec.eq_of_toNat_eq
  rw [packNNN_toNat, wordNNN, BitVec.toNat_ofNat]
  omega

/-- The numeric word of formats `XY` and `XYN` is the packed one. -/
theorem wordXYN_eq_packXYN (op : BitVec 4) (x y : Reg) (n : BitVec 4) :
    wordXYN op.toNat x y n.toNat = packXYN op x y n := by
  apply BitVec.eq_of_toNat_eq
  rw [packXYN_toNat, wordXYN, BitVec.toNat_ofNat]
  omega

/-- The decoder reads an instruction back from its encoding: by the format of the encoding, its fields are the operands, and
the high nibble with the sub-operation code selects the row (30_encoding.md R78, R79). -/
theorem decode_encode (i : Instr) : decode (encode i) = .ok i := by
  cases i with
  | cls | ret => rfl
  | jp | call | ldI | jpV0 =>
    rw [encode, decode_packNNN _ _ (by decide)]
    simp [decodeFamily]
  | seByte | sneByte | ldByte | addByte | rnd =>
    rw [encode, decode_packXKK _ _ _ (by decide)]
    simp [decodeFamily]
  | seReg | sneReg | drw =>
    rw [encode, decode_packXYN _ _ _ _ (by decide)]
    simp [decodeFamily]
  | ldReg | orReg | andReg | xorReg | addReg | subReg | shrReg | subnReg | shlReg =>
    rw [encode, decode_packXYN _ _ _ _ (by decide)]
    simp [decodeFamily, decodeFamily8]
  | skp | sknp =>
    rw [encode, decode_packXKK _ _ _ (by decide)]
    simp [decodeFamily, decodeFamilyE]
  | ldVxDT | ldVxK | ldDTVx | ldSTVx | addIVx | ldFVx | ldBVx | storeRegs | loadRegs =>
    rw [encode, decode_packXKK _ _ _ (by decide)]
    simp [decodeFamily, decodeFamilyF]

/-- A word that is the encoding of an instruction decodes to it. -/
theorem decode_of_eq_encode {w : Word} {i : Instr} (h : w = encode i) : decode w = .ok i :=
  h ▸ decode_encode i

/-! ## Which registers a write keeps, and which value `VF` shows -/

/-- A register write keeps every other register. -/
theorem regsKeptBut_setReg (s : State) (x : Reg) (b : Byte) : regsKeptBut [x] s (s.setReg x b) := by
  intro r hr
  rw [State.reg_setReg, if_neg (mt List.mem_singleton.2 hr)]

/-- A register write shows in its register. -/
@[simp] theorem reg_setReg_self (s : State) (x : Reg) (b : Byte) : (s.setReg x b).reg x = b := by
  rw [State.reg_setReg, if_pos rfl]

/-- A result with a flag keeps every register but the destination and `VF` (10_state.md R22). -/
theorem regsKeptBut_setRegFlag (s : State) (x : Reg) (b : Byte) (f : Bool) :
    regsKeptBut [x, 15] s (s.setRegFlag x b f) := by
  intro r hr
  obtain ⟨hx, hF⟩ : r ≠ x ∧ r ≠ 15 := by simpa using hr
  rw [State.reg_setRegFlag, if_neg hF, if_neg hx]

/-- A result with a flag shows in a destination other than `VF`. -/
theorem reg_setRegFlag_of_ne {s : State} {x : Reg} {b : Byte} {f : Bool} (hx : x ≠ 15) :
    (s.setRegFlag x b f).reg x = b := by
  rw [State.reg_setRegFlag, if_neg hx, if_pos rfl]

/-- A decided condition as a number. -/
theorem toNat_decide (p : Prop) [Decidable p] : (decide p).toNat = if p then 1 else 0 := by
  by_cases h : p
  · simp [h]
  · simp [h]

/-- A flag as a number (10_state.md R21). -/
theorem flagByte_toNat (f : Bool) : (if f then (1 : Byte) else 0).toNat = f.toNat := by
  cases f <;> rfl

/-- `VF` after a flag write, as a number. -/
theorem reg_setFlag_vF_toNat (s : State) (f : Bool) : ((s.setFlag f).reg 15).toNat = f.toNat := by
  rw [State.reg_setFlag, if_pos rfl, flagByte_toNat]

/-- `VF` after a result with a flag is the flag, whatever the destination (10_state.md R22). -/
theorem reg_setRegFlag_vF_toNat (s : State) (x : Reg) (b : Byte) (f : Bool) :
    ((s.setRegFlag x b f).reg 15).toNat = f.toNat :=
  reg_setFlag_vF_toNat _ f

end Sys2Proof.Machine
end

section
/-! PROOFS. The fetch of a cycle and the error records it can end with. -/

namespace Sys2Proof.Machine

open Sys2Proof.Spec

/-- An effect that is no fatal error leaves `STATUS` as it was. -/
theorem Effect.raised_or_status_eq {s t : State} (h : Effect s t) : (∃ info, t = s.raise info) ∨ t.status = s.status := by
  cases h with
  | raised info h => exact .inl ⟨info, h⟩
  | regs h | skip h _ | jump h _ | call _ h _ | ret _ h | store _ _ h | draw h | timer h | keyDone h | keyWait h =>
    rw [h]
    exact .inr rfl

/-- An instruction that stops a run did so by a fatal error (60_exceptions.md R203). -/
theorem exec_halts_only_by_raise {i : Instr} {s t : State} (h : exec i s = .next t) (hs : s.status = .run)
    (ht : t.status = .halted) : ∃ info, t = s.raise info := by
  obtain hraise | hstatus := (exec_effect h).raised_or_status_eq
  · exact hraise
  · rw [ht, hs] at hstatus
    cases hstatus

/-- The fetch address of an instruction in its execute phase is the `pc` the cycle began with (10_state.md R24). -/
@[simp] theorem fetchAddr_advanced (s : State) : s.advanced.fetchAddr = s.pc := by
  simp [State.fetchAddr]

/-- A failed fetch stops the cycle with its record (30_encoding.md R77). -/
theorem fetchDecodeExecute_of_fetchAt_none {s : State} (h : fetchAt s.mem s.pc = none) :
    fetchDecodeExecute s = .next (s.raiseAtFetch (.fetchError s.pc)) := by
  rw [fetchDecodeExecute, h]

/-- Whichever phase of a cycle fails, its record names the fetch address (60_exceptions.md R201). -/
theorem fetchDecodeExecute_halted_record {s t : State} (h : fetchDecodeExecute s = .next t) (hs : s.status = .run)
    (ht : t.status = .halted) : ∃ info, t.err = some { pcFetch := some s.pc, info := info } := by
  obtain ⟨-, rfl⟩ | ⟨w, r, -, -, rfl⟩ | ⟨w, i, -, -, -, hexec⟩ := fetchDecodeExecute_cases h
  · exact ⟨_, rfl⟩
  · exact ⟨_, rfl⟩
  · obtain ⟨info, rfl⟩ := exec_halts_only_by_raise hexec hs ht
    exact ⟨info, by simp⟩

/-- A step in `RUN` whose move is a cycle is fetch, decode and execute on the latched state, queued or not. -/
theorem step_running {s : State} (h : running s) :
    ∃ u, latched s u ∧ step s = fetchDecodeExecute u := by
  obtain ⟨hrun, hidle | ⟨k, r, rest, hcycle⟩⟩ := h
  · exact ⟨_, ⟨⟨_, _, _, _, rfl⟩, hrun⟩, step_idle_run hrun hidle⟩
  · exact ⟨_, ⟨⟨_, _, _, _, rfl⟩, hrun⟩, step_cycle_run hrun hcycle⟩

/-- A driver cycle executes the instruction the word at `pc` decodes to, with a fresh byte latched (30_encoding.md R76). -/
theorem step_idle_of_decode {s : State} {i : Instr} (hr : s.status = .run) (hq : s.inbox = [])
    (hpc : s.pc.toNat + 1 < 4096) (hi : decode (wordAt s s.pc.toNat) = .ok i) :
    step s = exec i { s with pc := s.pc + 2, rand := Config.randomByte s.draws, draws := s.draws + 1 } :=
  (step_idle_run hr hq).trans
    (fetchDecodeExecute_of_decode (s := { s with rand := Config.randomByte s.draws, draws := s.draws + 1 }) hpc hi)

/-- The word at an address, as a number (20_memory.md R52). -/
theorem wordAt_toNat (s : State) (a : Nat) :
    (wordAt s a).toNat = (s.mem.read a).toNat * 256 + (s.mem.read (a + 1)).toNat := by
  rw [← composeWord_read, composeWord_toNat]

/-- Settles O8: the step is fetch, decode and execute on a state with the same `pc`, memory and `STATUS`, and its three outcomes
are a failed fetch, a failed decoding and an instruction begun at `pc + 2`. -/
theorem fetchChecksAndAdvances : Obligations.FetchChecksAndAdvances := by
  intro s hs
  obtain ⟨u, ⟨⟨k, r, d, q, rfl⟩, hrun⟩, hstep⟩ := step_running hs
  refine ⟨?outOfRange, fun hpc => ⟨?word, wordAt_toNat s _, ?runs⟩, ?record⟩
  case outOfRange =>
    intro hpc
    exact ⟨_, hstep.trans (fetchDecodeExecute_of_fetchAt_none (fetchAt_bad hpc)), rfl, rfl⟩
  case word => rw [fetchAt_ok hpc, composeWord_read]
  case runs =>
    intro i hi
    exact ⟨_, BitVec.toNat_add _ _, hstep.trans (fetchDecodeExecute_of_decode hpc hi)⟩
  case record =>
    intro t ht hhalt
    simpa using fetchDecodeExecute_halted_record (hstep.symm.trans ht) hrun hhalt

end Sys2Proof.Machine
end

section
/-! PROOFS. The indexed jump and the ALU operations that write a register or a register and a flag. -/

namespace Sys2Proof.Machine

open Sys2Proof.Spec

/-! ## `BNNN` (40_control_flow.md R111) -/

/-- The target of `BNNN` is the exact sum: 12 bits and 8 bits never carry out of 16. -/
theorem jpV0_target_toNat (nnn : Imm12) (b : Byte) :
    (nnn.setWidth 16 + b.setWidth 16 : Word).toNat = nnn.toNat + b.toNat := by
  have hnnn := nnn.isLt
  have hb := b.isLt
  simp only [BitVec.toNat_add, BitVec.toNat_setWidth]
  omega

/-- Settles O26: the target is the exact sum, and 0xFFF + 0xFF is 0x10FE. -/
theorem indexedJumpAddsV0 : Obligations.IndexedJumpAddsV0 := by
  intro s nnn
  have htarget := jpV0_target_toNat nnn (s.reg 0)
  have hbound : nnn.toNat + (s.reg 0).toNat ≤ 0x10FE := by omega
  exact ⟨decode_of_eq_encode (wordNNN_eq_packNNN 0xB nnn), _, rfl, htarget, htarget.trans_le hbound, rfl⟩

/-! ## `8XY1`, `8XY2`, `8XY3` (41_alu.md R125 to R127) -/

/-- What a register write that is `op` bit by bit does: the bits, the registers kept, the frame. -/
theorem setReg_bitwise {op : Bool → Bool → Bool} {a b c : Byte} (hop : ∀ k, c.getLsbD k = op (a.getLsbD k) (b.getLsbD k))
    (s : State) (x : Reg) :
    (∀ k, ((s.setReg x c).reg x).getLsbD k = op (a.getLsbD k) (b.getLsbD k)) ∧
      regsKeptBut [x] s (s.setReg x c) ∧ s.setReg x c = { s with v := (s.setReg x c).v } :=
  ⟨fun k => by rw [reg_setReg_self, hop], regsKeptBut_setReg s x c, rfl⟩

/-- Settles O28: each operation writes one register with its word operation, which acts bit by bit. -/
theorem logicOperationsBitwise : Obligations.LogicOperationsBitwise := by
  intro s x y
  refine ⟨⟨decode_of_eq_encode (wordXYN_eq_packXYN 0x8 x y 1), _, rfl, ?or⟩,
    ⟨decode_of_eq_encode (wordXYN_eq_packXYN 0x8 x y 2), _, rfl, ?and⟩,
    ⟨decode_of_eq_encode (wordXYN_eq_packXYN 0x8 x y 3), _, rfl, ?xor⟩⟩
  case or => exact setReg_bitwise (op := or) (fun _ => BitVec.getLsbD_or) s x
  case and => exact setReg_bitwise (op := and) (fun _ => BitVec.getLsbD_and) s x
  case xor => exact setReg_bitwise (op := xor) (fun _ => BitVec.getLsbD_xor) s x

/-! ## `8XY5`, `8XY7` (41_alu.md R129, R131) -/

/-- Under `NOT_BORROW` the flag is 1 exactly when the subtrahend is no larger. -/
theorem subFlag_notBorrow {s : State} (h : s.params.subVf = .notBorrow) (a b : Byte) :
    (s.subFlag a b).toNat = if b.toNat ≤ a.toNat then 1 else 0 := by
  rw [State.subFlag, h]
  exact toNat_decide _

/-- Under `BORROW` the flag is 0 exactly when the subtrahend is no larger. -/
theorem subFlag_borrow {s : State} (h : s.params.subVf = .borrow) (a b : Byte) :
    (s.subFlag a b).toNat = if b.toNat ≤ a.toNat then 0 else 1 := by
  rw [State.subFlag, h]
  simp only [toNat_decide, ← Nat.not_le, ite_not]

/-- A subtraction of two bytes, whichever operand is the minuend: the difference modulo 256, the flag under both settings of
`P_SUB_VF`, the frame (decision D8, log 13). -/
theorem setRegFlag_sub (s : State) (x : Reg) (a b : Byte) :
    ∃ t, (.next (s.setRegFlag x (a - b) (s.subFlag a b)) : Result) = .next t ∧
      (x ≠ 15 → (t.reg x).toNat = (a.toNat + 256 - b.toNat) % 256) ∧
      (s.params.subVf = .notBorrow → (t.reg 15).toNat = if b.toNat ≤ a.toNat then 1 else 0) ∧
      (s.params.subVf = .borrow → (t.reg 15).toNat = if b.toNat ≤ a.toNat then 0 else 1) ∧
      regsKeptBut [x, 15] s t ∧ t = { s with v := t.v } := by
  refine ⟨_, rfl, ?difference, ?notBorrow, ?borrow, regsKeptBut_setRegFlag s x _ _, rfl⟩
  case difference =>
    intro hx
    rw [reg_setRegFlag_of_ne hx, BitVec.toNat_sub]
    omega
  case notBorrow =>
    intro h
    rw [reg_setRegFlag_vF_toNat, subFlag_notBorrow h]
  case borrow =>
    intro h
    rw [reg_setRegFlag_vF_toNat, subFlag_borrow h]

/-- Settles O30: both are one subtraction, `8XY7` with the operands exchanged. -/
theorem subtractionsSetFlag : Obligations.SubtractionsSetFlag := by
  intro s x y
  exact ⟨⟨decode_of_eq_encode (wordXYN_eq_packXYN 0x8 x y 5), setRegFlag_sub s x (s.reg x) (s.reg y)⟩,
    ⟨decode_of_eq_encode (wordXYN_eq_packXYN 0x8 x y 7), setRegFlag_sub s x (s.reg y) (s.reg x)⟩⟩

/-! ## `8XY6`, `8XYE` (41_alu.md R130, R132) -/

/-- The register that is shifted, by `P_SHIFT_SRC` (decision D9, log 14). -/
theorem shiftOperand_eq (s : State) (x y : Reg) :
    s.shiftOperand x y = if s.params.shiftSrc = .vx then s.reg x else s.reg y := by
  rw [State.shiftOperand]
  cases s.params.shiftSrc <;> rfl

/-- The bit shifted out to the right is the remainder of the halving. -/
theorem shrOut_toNat (b : Byte) : (shrOut b).toNat = b.toNat % 2 := by
  rw [shrOut, BitVec.getLsbD, Nat.toNat_testBit, pow_zero, Nat.div_one]

/-- The bit shifted out to the left is what doubling carries out of 8 bits. -/
theorem shlOut_toNat (b : Byte) : (shlOut b).toNat = b.toNat / 128 := by
  have hb := b.isLt
  rw [shlOut, BitVec.getLsbD, Nat.toNat_testBit]
  omega

/-- Settles O31: with the operand named `src`, halving and doubling are the shifts by one as numbers. -/
theorem shiftsCaptureBit : Obligations.ShiftsCaptureBit := by
  intro s x y src hsrc
  rw [← shiftOperand_eq] at hsrc
  subst hsrc
  refine ⟨⟨decode_of_eq_encode (wordXYN_eq_packXYN 0x8 x y 6), _, rfl, ?half, ?outRight,
      regsKeptBut_setRegFlag s x _ _, rfl⟩,
    ⟨decode_of_eq_encode (wordXYN_eq_packXYN 0x8 x y 0xE), _, rfl, ?double, ?outLeft,
      regsKeptBut_setRegFlag s x _ _, rfl⟩⟩
  case half =>
    intro hx
    rw [reg_setRegFlag_of_ne hx, BitVec.toNat_ushiftRight, Nat.shiftRight_eq_div_pow, pow_one]
  case outRight => rw [reg_setRegFlag_vF_toNat, shrOut_toNat]
  case double =>
    intro hx
    rw [reg_setRegFlag_of_ne hx, BitVec.toNat_shiftLeft, Nat.shiftLeft_eq, pow_one]
  case outLeft => rw [reg_setRegFlag_vF_toNat, shlOut_toNat]

/-! ## `CXKK` (41_alu.md R133) -/

/-- `CXKK` decodes to `RND Vx, byte` (30_encoding.md R79). -/
theorem decode_wordXKK_rnd (x : Reg) (kk : Byte) : decode (wordXKK 0xC x kk.toNat) = .ok (.rnd x kk) :=
  decode_of_eq_encode (wordXKK_eq_packXKK 0xC x kk)

/-- A driver cycle at a `CXKK` masks the byte it draws. -/
theorem step_idle_rnd {s : State} {x : Reg} {kk : Byte} (hr : s.status = .run) (hq : s.inbox = [])
    (hpc : s.pc.toNat + 1 < 4096) (hw : wordAt s s.pc.toNat = wordXKK 0xC x kk.toNat) :
    ∃ t, step s = .next t ∧ t.reg x = (Config.randomByte s.draws &&& kk) ∧ t.draws = s.draws + 1 := by
  have hi : decode (wordAt s s.pc.toNat) = .ok (.rnd x kk) := hw ▸ decode_wordXKK_rnd x kk
  exact ⟨_, step_idle_of_decode hr hq hpc hi, reg_setReg_self _ x _, rfl⟩

/-- Settles O32: the latched byte is masked bit by bit, and a driver cycle latches the draw of its counter. -/
theorem randomByteIsMasked : Obligations.RandomByteIsMasked := by
  intro s x kk
  exact ⟨⟨decode_wordXKK_rnd x kk, _, rfl, setReg_bitwise (op := and) (fun _ => BitVec.getLsbD_and) s x⟩, step_idle_rnd⟩

end Sys2Proof.Machine
end

section
/-! PROOFS. The index register, and the block instructions whose addresses are in range. -/

namespace Sys2Proof.Machine

open Sys2Proof.Spec

/-! ## `FX1E` (42_index_memory.md R151) -/

/-- The sum of `I` and a byte, as a number modulo 2^16. -/
theorem index_add_byte_toNat (i : Word) (b : Byte) : (i + b.setWidth 16).toNat = (i.toNat + b.toNat) % 65536 := by
  have := b.isLt
  simp only [BitVec.toNat_add, BitVec.toNat_setWidth]
  omega

/-- The flag of `FX1E`: the exact sum is above 0xFFF. -/
theorem overflowFFF_toNat (i : Word) (b : Byte) :
    (overflowFFF i b).toNat = if 0xFFF < i.toNat + b.toNat then 1 else 0 :=
  toNat_decide _

/-- Under `UNCHANGED` `FX1E` writes `I` only (decision D10, log 15). -/
theorem exec_addIVx_unchanged {s : State} (x : Reg) (h : s.params.fx1eVf = .unchanged) :
    exec (.addIVx x) s = .next { s with i := s.i + (s.reg x).setWidth 16 } := by
  rw [exec, execAddIVx, State.fx1eFlag]
  simp only [h]

/-- Under `OVERFLOW_FFF` `FX1E` writes its flag after `I` (decision D10, log 15). -/
theorem exec_addIVx_overflowFFF {s : State} (x : Reg) (h : s.params.fx1eVf = .overflowFFF) :
    exec (.addIVx x) s =
      .next ({ s with i := s.i + (s.reg x).setWidth 16 }.setFlag (overflowFFF s.i (s.reg x))) := by
  rw [exec, execAddIVx, State.fx1eFlag]
  simp only [h]

/-- Settles O34: `I` is the sum in both settings, and the flag is written under `OVERFLOW_FFF` only. -/
theorem addToIndex : Obligations.AddToIndex := by
  intro s x
  refine ⟨decode_of_eq_encode (wordXKK_eq_packXKK 0xF x 0x1E), ?_⟩
  have hsum := index_add_byte_toNat s.i (s.reg x)
  cases hrule : s.params.fx1eVf with
  | unchanged => exact ⟨_, exec_addIVx_unchanged x hrule, hsum, fun _ => rfl, nofun⟩
  | overflowFFF =>
    refine ⟨_, exec_addIVx_overflowFFF x hrule, hsum, nofun, fun _ => ⟨?flag, ?kept, rfl⟩⟩
    case flag => rw [reg_setFlag_vF_toNat, overflowFFF_toNat]
    case kept => exact regsKeptBut_setReg { s with i := s.i + (s.reg x).setWidth 16 } 15 _

/-! ## `FX29` (42_index_memory.md R152) -/

/-- The address of a glyph, as a number modulo 2^16. -/
theorem glyphAddr_toNat (s : State) (b : Byte) :
    (s.glyphAddr b).toNat = (0x50 + s.params.fontGlyphBytes * (b.toNat % 16)) % 65536 :=
  BitVec.toNat_ofNat _ _

/-- Settles O35: with glyphs of 5 bytes the last one begins at 0x50 + 75. -/
theorem glyphAddressOfLowNibble : Obligations.GlyphAddressOfLowNibble := by
  intro s x
  have haddr := glyphAddr_toNat s (s.reg x)
  refine ⟨decode_of_eq_encode (wordXKK_eq_packXKK 0xF x 0x29), _, rfl, rfl, haddr, ?_⟩
  intro h5
  rw [h5, Nat.mod_eq_of_lt (by omega)] at haddr
  exact ⟨haddr, haddr.trans_le (by omega)⟩

/-! ## Memory after a block store in range (42_index_memory.md R153) -/

/-- Byte `k` of the block stands at `I + k`. -/
theorem read_storeBytes_inside {s : State} {bs : List Byte} (hwf : s.mem.wf = true)
    (hb : s.i.toNat + bs.length ≤ 4096) {k : Nat} (hk : k < bs.length) :
    (s.storeBytes bs).mem.read (s.i.toNat + k) = bs.getD k 0 := by
  rw [State.storeBytes_mem, Memory.read_writeBytes hwf hb, if_pos (by omega), Nat.add_sub_cancel_left]

/-- Every address outside the block reads as before. -/
theorem read_storeBytes_outside {s : State} {bs : List Byte} (hwf : s.mem.wf = true)
    (hb : s.i.toNat + bs.length ≤ 4096) {a : Nat} (ha : ¬(s.i.toNat ≤ a ∧ a < s.i.toNat + bs.length)) :
    (s.storeBytes bs).mem.read a = s.mem.read a := by
  rw [State.storeBytes_mem, Memory.read_writeBytes hwf hb, if_neg ha]

/-! ## `FX33` (42_index_memory.md R154, R155) -/

/-- Settles O36: the three bytes are the quotients and remainders of the byte by 100 and 10. -/
theorem bcdStoresThreeDigits : Obligations.BcdStoresThreeDigits := by
  intro s x
  refine ⟨decode_of_eq_encode (wordXKK_eq_packXKK 0xF x 0x33), fun hwf hb => ⟨_, exec_ldBVx_ok hb, ?_⟩⟩
  have hlen : s.i.toNat + (bcdDigits (s.reg x)).length ≤ 4096 := by rw [bcdDigits_length]; omega
  obtain ⟨hundreds, tens, ones⟩ := bcdDigits_toNat (s.reg x)
  rw [← read_storeBytes_inside hwf hlen (by simp), Nat.add_zero] at hundreds
  rw [← read_storeBytes_inside hwf hlen (by simp)] at tens ones
  have hv := (s.reg x).isLt
  exact ⟨by omega, by omega, by omega, by omega, fun a ha => read_storeBytes_outside hwf hlen ha, rfl⟩

/-! ## `FX55` and `FX65` (42_index_memory.md R156 to R158) -/

/-- `I` after `UpdateI` as a number: with the last address in range nothing wraps (decision D11, log 16). -/
theorem updateI_i_toNat {s : State} {x : Reg} (h : s.i.toNat + x.val < 4096) :
    (s.updateI x).i.toNat = match s.params.ldstI with
      | .unchanged => s.i.toNat
      | .incXPlus1 => s.i.toNat + x.val + 1
      | .incX => s.i.toNat + x.val := by
  rw [State.updateI_i]
  cases s.params.ldstI with
  | unchanged => rfl
  | incXPlus1 =>
    simp only [BitVec.toNat_add, BitVec.toNat_ofNat]
    omega
  | incX =>
    simp only [BitVec.toNat_add, BitVec.toNat_ofNat]
    omega

/-- `UpdateI` keeps the registers. -/
@[simp] theorem reg_updateI (s : State) (x r : Reg) : (s.updateI x).reg r = s.reg r := by
  rw [State.reg, State.updateI_v, State.reg]

/-- Settles O37: the bytes stored are the registers in order, and `UpdateI` touches neither memory nor registers. -/
theorem blockStoreWritesRegisters : Obligations.BlockStoreWritesRegisters := by
  intro s x
  refine ⟨decode_of_eq_encode (wordXKK_eq_packXKK 0xF x 0x55), fun hwf hb => ?_⟩
  have hlen := s.regsUpTo_length x
  have hblock : s.i.toNat + (s.regsUpTo x).length ≤ 4096 := by omega
  refine ⟨_, exec_storeRegs_ok hb, ?stored, ?kept, ?index, ?frame⟩
  case stored =>
    intro k hk
    have hkx : k.val ≤ x.val := hk
    rw [State.updateI_mem, read_storeBytes_inside hwf hblock (by omega), State.regsUpTo_getD s x k hkx]
  case kept =>
    intro a ha
    rw [State.updateI_mem, read_storeBytes_outside hwf hblock (by omega)]
  case index => exact updateI_i_toNat (s := s.storeBytes (s.regsUpTo x)) hb
  case frame =>
    rw [State.updateI_only]
    rfl

/-- `FX65` in range: the registers from `I` upwards, then `UpdateI` (42_index_memory.md R158). -/
theorem exec_loadRegs_ok {s : State} {x : Reg} (h : s.i.toNat + x.val < 4096) :
    exec (.loadRegs x) s = .next ((s.loadFirst (x.val + 1)).updateI x) := by
  rw [exec, execLoadRegs, guardBounds_ok _ (by omega)]

/-- Settles O38: the block load writes the first `X + 1` registers, and `UpdateI` starts from the old `I`. -/
theorem blockLoadReadsRegisters : Obligations.BlockLoadReadsRegisters := by
  intro s x
  refine ⟨decode_of_eq_encode (wordXKK_eq_packXKK 0xF x 0x65), fun hb => ?_⟩
  refine ⟨_, exec_loadRegs_ok hb, ?loaded, ?index, ?frame⟩
  case loaded =>
    intro k
    rw [reg_updateI, State.reg_loadFirst s _ (by omega) k]
    exact if_congr Nat.lt_succ_iff rfl rfl
  case index =>
    have hindex := updateI_i_toNat (s := s.loadFirst (x.val + 1)) (x := x) (by simpa using hb)
    rwa [State.loadFirst_i, State.loadFirst_params] at hindex
  case frame => rw [State.updateI_only, State.loadFirst_only]

end Sys2Proof.Machine
end

section
/-! PROOFS. The skips on a key and the key wait. -/

namespace Sys2Proof.Machine

open Sys2Proof.Spec

/-! ## `EX9E` and `EXA1` (44_timers_keys.md R180 to R182) -/

/-- The key number: the byte below 16, or its low nibble under `LOW_NIBBLE` (decision D12, log 17). -/
theorem keyIndex_eq_some {s : State} {b : Byte} {k : Nat}
    (h : (b.toNat < 16 ∧ k = b.toNat) ∨ (s.params.keyIndex = .lowNibble ∧ k = b.toNat % 16)) : s.keyIndex b = some k := by
  obtain ⟨hlt, rfl⟩ | ⟨hrule, rfl⟩ := h
  · exact s.keyIndex_of_lt hlt
  · rw [State.keyIndex, hrule]

/-- Under `FAULT` a byte of 16 or more is no key number (decision D12, log 17). -/
theorem keyIndex_eq_none {s : State} {b : Byte} (h : 16 ≤ b.toNat) (hrule : s.params.keyIndex = .fault) :
    s.keyIndex b = none := by
  rw [State.keyIndex, hrule]
  exact if_neg (by omega)

/-- Settles O45: the key number decides between the skip, whose condition is the key's state, and the fatal error. -/
theorem keySkipsTestKey : Obligations.KeySkipsTestKey := by
  intro s x k
  refine ⟨decode_wordXKK_skp x, decode_of_eq_encode (wordXKK_eq_packXKK 0xE x 0xA1), ?skips, ?faults⟩
  case skips =>
    intro h
    have hkey := keyIndex_eq_some h
    have hpressed : s.keyPressed k = s.keys.getLsbD k := rfl
    rw [exec, execSkp, exec, execSknp, skipOnKey_eq hkey, skipOnKey_eq hkey, State.skipIf_only, State.skipIf_only, hpressed]
    cases s.keys.getLsbD k
    · exact ⟨rfl, rfl⟩
    · exact ⟨rfl, rfl⟩
  case faults =>
    intro h hrule
    have hkey := keyIndex_eq_none h hrule
    exact ⟨skipOnKey_raise hkey, skipOnKey_raise hkey⟩

/-! ## `FX0A` (44_timers_keys.md R184 to R186) -/

/-- The new keys of the model are the keys that complete the wait (decision D13, log 18). -/
theorem newKeys_getLsbD (s : State) (k : Nat) : s.newKeys.getLsbD k = true ↔ keyIsNew s k := by
  have hlt : s.keys.getLsbD k = true → k < 16 := BitVec.lt_of_getLsbD
  rw [keyIsNew, State.newKeys]
  cases s.params.keyTrigger with
  | level => simp
  | pressEdge =>
    cases s.kwActive with
    | false => simp
    | true => simpa using fun hk (_ : s.kwMask.getLsbD k = false) => hlt hk

/-- No key completes the wait exactly when the new keys are none. -/
theorem newKeys_eq_zero_iff (s : State) : s.newKeys = 0 ↔ ∀ k, k < 16 → ¬keyIsNew s k := by
  simp only [← newKeys_getLsbD]
  constructor
  · intro h k _
    simp [h]
  · intro h
    exact BitVec.eq_of_getLsbD_eq fun k hk => by simpa using h k hk

/-- `FX0A` with a key that completes the wait stores the lowest one (44_timers_keys.md R185, R186). -/
theorem exec_ldVxK_completes {s : State} {x : Reg} (h : s.newKeys ≠ 0) :
    exec (.ldVxK x) s = .next { s.setReg x (lowestKey s.newKeys) with kwActive := false, kwMask := 0 } :=
  if_pos h

/-- `FX0A` with no key that completes the wait is entered again in the next cycle (44_timers_keys.md R184). -/
theorem exec_ldVxK_waits {s : State} {x : Reg} (h : s.newKeys = 0) :
    exec (.ldVxK x) s = .next { s with kwActive := true, kwMask := s.keys, pc := s.fetchAddr } :=
  if_neg (not_not.2 h)

/-- The lowest key of a key state is the one pressed with none pressed below it (44_timers_keys.md R186). -/
theorem lowestKey_toNat_eq {ks : KeyState} {k : Nat} (hk : ks.getLsbD k = true)
    (hlow : ∀ j, j < k → ks.getLsbD j = false) : (lowestKey ks).toNat = k := by
  have hne : ks ≠ 0 := by rintro rfl; simp at hk
  obtain ⟨-, hpressed, hbelow⟩ := lowestKey_spec hne
  rcases Nat.lt_trichotomy (lowestKey ks).toNat k with hlt | heq | hgt
  · rw [hlow _ hlt] at hpressed; cases hpressed
  · exact heq
  · rw [hbelow _ hgt] at hk; cases hk

/-- `FX0A` decodes to `LD Vx, K` (30_encoding.md R79). -/
theorem decode_wordXKK_ldVxK (x : Reg) : decode (wordXKK 0xF x 0x0A) = .ok (.ldVxK x) :=
  decode_of_eq_encode (wordXKK_eq_packXKK 0xF x 0x0A)

/-- Settles O47: the least key that completes the wait is the lowest of the new keys. -/
theorem keyWaitCompletesWithLowestKey : Obligations.KeyWaitCompletesWithLowestKey := by
  intro s x k
  refine ⟨decode_wordXKK_ldVxK x, fun hk hnew hlow => ?_⟩
  have hne : s.newKeys ≠ 0 := fun h => (newKeys_eq_zero_iff s).1 h k hk hnew
  have hlowest : (lowestKey s.newKeys).toNat = k :=
    lowestKey_toNat_eq ((newKeys_getLsbD s k).2 hnew) fun j hj =>
      Bool.eq_false_iff.2 (mt (newKeys_getLsbD s j).1 (hlow j hj))
  refine ⟨_, exec_ldVxK_completes hne, ?stored, regsKeptBut_setReg s x _, rfl⟩
  case stored => exact (congrArg BitVec.toNat (reg_setReg_self s x _)).trans hlowest

/-- Settles O48: with no key that completes it, the wait keeps the sample and goes back to the fetch address. -/
theorem keyWaitReenters : Obligations.KeyWaitReenters := by
  intro s x
  exact ⟨decode_wordXKK_ldVxK x, fun h => exec_ldVxK_waits ((newKeys_eq_zero_iff s).2 h)⟩

end Sys2Proof.Machine
end

section
/-! PROOFS. Jumps, calls and returns, and the skips on registers and bytes. -/

namespace Sys2Proof.Machine

open Sys2Proof.Spec

/-- An unchecked jump goes to the 12-bit target as a number (40_control_flow.md R101). -/
theorem jump_nnn_pc_toNat (s : State) (nnn : Imm12) : (s.jump (nnn.setWidth 16)).pc.toNat = nnn.toNat :=
  BitVec.toNat_setWidth_of_le (by decide)

/-- Taking a fatal error in the execute phase fails at the fetch address, 2 before `pc` (60_exceptions.md R203). -/
theorem failedAt_raise (s : State) (info : ErrorInfo) : failedAt (s.raise info) (s.pc - 2) info :=
  ⟨State.raise_status s info, State.raise_err s info⟩

/-! ## `00EE` (40_control_flow.md R103) -/

/-- A return with `SP = j + 1` takes `STACK[j]` into `pc`, unchecked, and leaves `SP = j`. -/
theorem exec_ret_ok {s : State} {j : Fin 16} (h : s.sp.val = j.val + 1) :
    exec .ret s = .next { s with pc := s.stack[j], sp := j.castSucc } := by
  have htop : s.top = s.stack[j] := by simp [State.top, h]
  have hsp : s.popped.sp = j.castSucc := Fin.ext (by simp [h])
  calc exec .ret s = .next (s.popped.jump s.top) := popThen_ok (by omega)
    _ = .next { s with pc := s.top, sp := s.popped.sp } := rfl
    _ = .next { s with pc := s.stack[j], sp := j.castSucc } := by rw [htop, hsp]

/-- Settles O22: the pop by `exec_ret_ok`, and the fatal error on an empty stack. -/
theorem returnPopsIntoPc : Obligations.ReturnPopsIntoPc := by
  intro s
  refine ⟨decode_of_eq_encode rfl, ?pops, ?underflows⟩
  case pops => exact fun j h => ⟨_, exec_ret_ok h, rfl, rfl, rfl⟩
  case underflows => exact fun h => ⟨_, popThen_empty h, failedAt_raise s _⟩

/-! ## `1NNN` and `2NNN` (40_control_flow.md R104, R105) -/

/-- Settles O20: the jump writes `pc` only. -/
theorem jumpGoesToTarget : Obligations.JumpGoesToTarget := by
  intro s nnn
  exact ⟨decode_of_eq_encode (wordNNN_eq_packNNN 0x1 nnn), _, rfl, jump_nnn_pc_toNat s nnn, rfl⟩

/-- A call on a stack that is not full pushes `pc`, which fetch has advanced past the call, and jumps. -/
theorem exec_call_ok {s : State} {nnn : Imm12} (h : s.sp.val < 16) :
    exec (.call nnn) s = .next ((s.pushed s.pc h).jump (nnn.setWidth 16)) := pushThen_ok h

/-- A push writes the entry at `SP` and keeps every other one (10_state.md R30). -/
theorem pushed_stack_getElem {s : State} {a : Word} (h : s.sp.val < 16) (j : Fin 16) :
    (s.pushed a h).stack[j] = if j.val = s.sp.val then a else s.stack[j] := by
  simp [Vector.getElem_set, eq_comm]

/-- A return from any `pc` after a push goes to the value pushed, with `SP` as it was before the push. -/
theorem exec_ret_pushed {s : State} {a : Word} (h : s.sp.val < 16) (q : Word) :
    exec .ret ((s.pushed a h).jump q) = .next { s.pushed a h with pc := a, sp := s.sp } := by
  have hentry : (s.pushed a h).stack[(⟨s.sp.val, h⟩ : Fin 16)] = a := (pushed_stack_getElem h _).trans (if_pos rfl)
  have hret := exec_ret_ok (s := (s.pushed a h).jump q) (j := ⟨s.sp.val, h⟩) rfl
  rw [State.jump_stack, hentry] at hret
  exact hret

/-- Settles O21: the call pushes and jumps, a return pops what it pushed, and a full stack is a fatal error. -/
theorem callPushesReturnAddress : Obligations.CallPushesReturnAddress := by
  intro s nnn
  refine ⟨decode_of_eq_encode (wordNNN_eq_packNNN 0x2 nnn), ?calls, ?overflows⟩
  case calls =>
    exact fun h => ⟨_, exec_call_ok h, jump_nnn_pc_toNat _ nnn, rfl, pushed_stack_getElem h, rfl, exec_ret_pushed h⟩
  case overflows => exact fun h => ⟨_, pushThen_full h, failedAt_raise s _, rfl, rfl, rfl⟩

/-! ## `3XKK`, `4XKK`, `5XY0`, `9XY0` (40_control_flow.md R107 to R110) -/

/-- A skip on equal bytes writes `pc` only, 2 further exactly when they are equal. -/
theorem skipIf_beq (s : State) (a b : Byte) : s.skipIf (a == b) = { s with pc := if a = b then s.pc + 2 else s.pc } := by
  simp only [State.skipIf_only, beq_iff_eq]

/-- A skip on different bytes writes `pc` only, 2 further exactly when they differ. -/
theorem skipIf_bne (s : State) (a b : Byte) : s.skipIf (a != b) = { s with pc := if a = b then s.pc else s.pc + 2 } := by
  simp only [State.skipIf_only, bne_iff_ne, ite_not]

/-- Settles O25: each word encodes its instruction, and each instruction is a skip on equal or on different bytes. -/
theorem skipsTestRegisters : Obligations.SkipsTestRegisters := by
  intro s x y kk
  refine ⟨⟨decode_of_eq_encode (wordXKK_eq_packXKK 0x3 x kk), ?seByte⟩,
    ⟨decode_of_eq_encode (wordXKK_eq_packXKK 0x4 x kk), ?sneByte⟩,
    ⟨decode_of_eq_encode (wordXYN_eq_packXYN 0x5 x y 0), ?seReg⟩,
    ⟨decode_of_eq_encode (wordXYN_eq_packXYN 0x9 x y 0), ?sneReg⟩⟩
  case seByte => exact congrArg Host.Outcome.next (skipIf_beq s (s.reg x) kk)
  case sneByte => exact congrArg Host.Outcome.next (skipIf_bne s (s.reg x) kk)
  case seReg => exact congrArg Host.Outcome.next (skipIf_beq s (s.reg x) (s.reg y))
  case sneReg => exact congrArg Host.Outcome.next (skipIf_bne s (s.reg x) (s.reg y))

end Sys2Proof.Machine
end

section
/-! PROOFS. The register loads, and the additions with and without a carry flag. -/

namespace Sys2Proof.Machine

open Sys2Proof.Spec

/-! ## `6XKK`, `7XKK`, `8XY0` (41_alu.md R122, R123, R124) -/

/-- Settles O27: each instruction is one register write, of `KK`, the sum with `KK` (with no flag after it) or `V[Y]`. -/
theorem loadsAndAddImmediate : Obligations.LoadsAndAddImmediate := by
  intro s x y kk
  refine ⟨⟨decode_of_eq_encode (wordXKK_eq_packXKK 0x6 x kk), _, rfl, reg_setReg_self s x _, regsKeptBut_setReg s x _, rfl⟩,
    ⟨decode_of_eq_encode (wordXKK_eq_packXKK 0x7 x kk), _, rfl, ?sum, regsKeptBut_setReg s x _, rfl⟩,
    ⟨decode_of_eq_encode (wordXYN_eq_packXYN 0x8 x y 0), _, rfl, reg_setReg_self s x _, regsKeptBut_setReg s x _, rfl⟩⟩
  case sum => rw [reg_setReg_self, BitVec.toNat_add]

/-! ## `8XY4` (41_alu.md R128) -/

/-- The carry of `8XY4`: the exact sum is above 255. -/
theorem carryOut_toNat (a b : Byte) : (carryOut a b).toNat = if 255 < a.toNat + b.toNat then 1 else 0 :=
  toNat_decide _

/-- Settles O29: the sum and then its carry, both of the operands before the write, and `VF` shows the carry whatever `X` is. -/
theorem addSetsCarry : Obligations.AddSetsCarry := by
  intro s x y
  refine ⟨decode_of_eq_encode (wordXYN_eq_packXYN 0x8 x y 4), _, rfl, ?sum, ?carry, regsKeptBut_setRegFlag s x _ _, rfl⟩
  case sum =>
    intro hx
    rw [reg_setRegFlag_of_ne hx, BitVec.toNat_add]
  case carry => rw [reg_setRegFlag_vF_toNat, carryOut_toNat]

end Sys2Proof.Machine
end

section
/-! PROOFS. The load of an immediate address into the index register. -/

namespace Sys2Proof.Machine

open Sys2Proof.Spec

/-- `ANNN` writes `I` only, with its address widened to 16 bits (42_index_memory.md R150). -/
theorem exec_ldI (s : State) (nnn : Imm12) : exec (.ldI nnn) s = .next { s with i := nnn.setWidth 16 } := rfl

/-- Settles O33: the word encodes the instruction, and widening the 12-bit address keeps its value. -/
theorem loadIndexImmediate : Obligations.LoadIndexImmediate := by
  intro s nnn
  have hvalue : (nnn.setWidth 16).toNat = nnn.toNat := BitVec.toNat_setWidth_of_le (by decide)
  exact ⟨decode_of_eq_encode (wordNNN_eq_packNNN 0xA nnn), _, exec_ldI s nnn, hvalue, rfl⟩

end Sys2Proof.Machine
end

section
/-! PROOFS. The display: the clear screen and the sprite. -/

namespace Sys2Proof.Machine

open Sys2Proof.Spec

/-! ## `00E0` (43_display.md R170) -/

/-- The snapshot of a clear framebuffer is 32 rows of 64 zero bytes (43_display.md R177). -/
theorem snapshot_of_fb_clear {s : State} (h : s.fb = Framebuffer.clear) : s.snapshot = List.replicate 2048 0 := by
  simp [State.snapshot, h, Framebuffer.clear]

/-- Settles O41: the instruction writes the clear framebuffer and nothing else. -/
theorem clearScreenClearsEveryPixel : Obligations.ClearScreenClearsEveryPixel := by
  intro s
  exact ⟨decode_of_eq_encode rfl, _, rfl, Framebuffer.pixel_clear, snapshot_of_fb_clear rfl, rfl⟩

/-! ## `DXYN` (43_display.md R171 to R175) -/

/-- The pixels the sprite touches are the ones drawn (43_display.md R171, R173). -/
theorem mem_spritePixels_iff_touches {s : State} {vx vy : Byte} {n : Nat} {p : Pixel} :
    p ∈ s.spritePixels vx vy n ↔ touches s vx vy n p :=
  mem_spritePixels

/-- Some pixel drawn is set exactly when some touched pixel is. -/
theorem any_spritePixels_iff {s : State} {vx vy : Byte} {n : Nat} :
    (s.spritePixels vx vy n).any (fun p => s.fb.pixel p) = true ↔ ∃ p, touches s vx vy n p ∧ s.fb.pixel p = true := by
  simp only [List.any_eq_true, mem_spritePixels_iff_touches]

/-- `DXYN` with every address in range, or with no row, draws (43_display.md R172, R175). -/
theorem exec_drw_ok {s : State} {x y : Reg} {n : Fin 16} (h : n = 0 ∨ s.i.toNat + n.val ≤ 4096) :
    exec (.drw x y n) s = .next (s.drawn x y n.val) :=
  guardBounds_ok _ (h.imp_left (congrArg Fin.val))

/-- `DXYN` with an address out of range is the fatal error with the lowest one (20_memory.md R56). -/
theorem exec_drw_bad {s : State} {x y : Reg} {n : Fin 16} (h0 : n ≠ 0) (h : 4096 < s.i.toNat + n.val) :
    exec (.drw x y n) s = .next (s.raise (.invariantViolation .memBounds (max s.i.toNat 4096))) :=
  guardBounds_bad _ (Fin.pos_iff_ne_zero.2 h0) h

/-! ### What a draw of at most 16 rows does -/

section Drawn

variable {s : State} {x y : Reg} {n : Nat} (hn : n ≤ 16)

include hn

/-- A draw toggles the pixels of the sprite, each of them once (43_display.md R172, R174). -/
theorem pixel_drawn (p : Pixel) :
    (s.drawn x y n).fb.pixel p = (s.fb.pixel p ^^ decide (p ∈ s.spritePixels (s.reg x) (s.reg y) n)) :=
  Framebuffer.pixel_drawPixels (nodup_spritePixels s _ _ hn) p

/-- A touched pixel is toggled. -/
theorem pixel_drawn_of_touches {p : Pixel} (hp : touches s (s.reg x) (s.reg y) n p) :
    (s.drawn x y n).fb.pixel p = !s.fb.pixel p := by
  rw [pixel_drawn hn, decide_eq_true (mem_spritePixels_iff_touches.2 hp), Bool.xor_true]

/-- A pixel that is not touched is kept. -/
theorem pixel_drawn_of_not_touches {p : Pixel} (hp : ¬touches s (s.reg x) (s.reg y) n p) :
    (s.drawn x y n).fb.pixel p = s.fb.pixel p := by
  rw [pixel_drawn hn, decide_eq_false (mt mem_spritePixels_iff_touches.1 hp), Bool.xor_false]

/-- After a draw `VF` is 1 when some pixel of the sprite was set before, and 0 otherwise (43_display.md R172). -/
theorem reg_drawn_vF : (s.drawn x y n).reg 15 =
    if (s.spritePixels (s.reg x) (s.reg y) n).any (fun p => s.fb.pixel p) then 1 else 0 := by
  rw [State.drawn, State.reg_setFlag, if_pos rfl, Framebuffer.collision_drawPixels (nodup_spritePixels s _ _ hn)]

/-- A touched pixel that was set is a collision. -/
theorem reg_drawn_vF_of_collision (h : ∃ p, touches s (s.reg x) (s.reg y) n p ∧ s.fb.pixel p = true) :
    (s.drawn x y n).reg 15 = 1 := by
  rw [reg_drawn_vF hn, if_pos (any_spritePixels_iff.2 h)]

/-- With no touched pixel set there is no collision. -/
theorem reg_drawn_vF_of_no_collision (h : ¬∃ p, touches s (s.reg x) (s.reg y) n p ∧ s.fb.pixel p = true) :
    (s.drawn x y n).reg 15 = 0 := by
  rw [reg_drawn_vF hn, if_neg (mt any_spritePixels_iff.1 h)]

end Drawn

/-- A draw keeps every register but `VF` (43_display.md R172). -/
theorem regsKeptBut_drawn (s : State) (x y : Reg) (n : Nat) : regsKeptBut [15] s (s.drawn x y n) :=
  regsKeptBut_setReg { s with fb := (s.drawn x y n).fb } 15 _

/-- Settles O42: the draw toggles the touched pixels, sets the collision flag and keeps the rest, and the bounds check comes
before any pixel. -/
theorem drawTogglesSpritePixels : Obligations.DrawTogglesSpritePixels := by
  intro s x y n
  have hn : n.val ≤ 16 := n.isLt.le
  refine ⟨decode_of_eq_encode (wordXYN_eq_packXYN 0xD x y (BitVec.ofFin n)), ?draws, ?faults⟩
  case draws =>
    intro h
    exact ⟨_, exec_drw_ok h, fun _ => pixel_drawn_of_touches hn, fun _ => pixel_drawn_of_not_touches hn,
      reg_drawn_vF_of_collision hn, reg_drawn_vF_of_no_collision hn, regsKeptBut_drawn s x y n.val, rfl⟩
  case faults =>
    intro h0 h
    exact ⟨_, exec_drw_bad h0 h, failedAt_raise s _, State.raise_fb s _⟩

end Sys2Proof.Machine
end

section
/-! PROOFS. The timers: the reads and writes of `DT` and `ST`, and the timer step after a write. -/

namespace Sys2Proof.Machine

open Sys2Proof.Spec

/-! ## The timer step and `sound_active` (60_exceptions.md R215; 10_state.md R34) -/

/-- A timer counts down by 1, floored at 0: the floor is what subtraction on numbers does (60_exceptions.md R215). -/
theorem countDown_toNat (b : Byte) : (countDown b).toNat = b.toNat - 1 := by
  by_cases h : 0 < b.toNat
  case pos =>
    have hle : (1 : Byte) ≤ b := BitVec.le_def.2 h
    rw [countDown, if_pos h, BitVec.toNat_sub_of_le hle]
    rfl
  case neg =>
    rw [countDown, if_neg h]
    omega

/-- The delay timer after a timer step (60_exceptions.md R215). -/
theorem timerStep_dt_toNat (s : State) : (timerStep s).dt.toNat = s.dt.toNat - 1 :=
  countDown_toNat s.dt

/-- The sound timer after a timer step (60_exceptions.md R215). -/
theorem timerStep_st_toNat (s : State) : (timerStep s).st.toNat = s.st.toNat - 1 :=
  countDown_toNat s.st

/-- The sound is on exactly while `ST` is above 0 (10_state.md R34). -/
theorem soundActive_iff (s : State) : s.soundActive = true ↔ 0 < s.st.toNat :=
  decide_eq_true_iff

/-- A sound timer at 1 or below is silent after the next timer step. -/
theorem timerStep_soundActive_eq_false {s : State} (h : s.st.toNat ≤ 1) : (timerStep s).soundActive = false := by
  rw [Bool.eq_false_iff, ne_eq, soundActive_iff, timerStep_st_toNat]
  omega

/-! ## `FX07`, `FX15`, `FX18` (44_timers_keys.md R183, R188, R189) -/

/-- `FX07` is one register write, of `DT` (R183). -/
theorem exec_ldVxDT (s : State) (x : Reg) : exec (.ldVxDT x) s = .next (s.setReg x s.dt) := rfl

/-- `FX15` writes `V[X]` to `DT` only (R188). -/
theorem exec_ldDTVx (s : State) (x : Reg) : exec (.ldDTVx x) s = .next { s with dt := s.reg x } := rfl

/-- `FX18` writes `V[X]` to `ST` only (R189). -/
theorem exec_ldSTVx (s : State) (x : Reg) : exec (.ldSTVx x) s = .next { s with st := s.reg x } := rfl

/-- Settles O46: each instruction is one write, and the timer step and `sound_active` read the written timer. -/
theorem timerReadsAndWrites : Obligations.TimerReadsAndWrites := by
  intro s x
  refine ⟨⟨decode_of_eq_encode (wordXKK_eq_packXKK 0xF x 0x07), ?readsDT⟩,
    ⟨decode_of_eq_encode (wordXKK_eq_packXKK 0xF x 0x15), ?writesDT⟩,
    ⟨decode_of_eq_encode (wordXKK_eq_packXKK 0xF x 0x18), ?writesST⟩⟩
  case readsDT => exact ⟨_, exec_ldVxDT s x, reg_setReg_self s x _, regsKeptBut_setReg s x _, rfl⟩
  case writesDT => exact ⟨_, exec_ldDTVx s x, rfl, rfl, timerStep_dt_toNat _⟩
  case writesST =>
    exact ⟨_, exec_ldSTVx s x, rfl, rfl, soundActive_iff _, fun h => timerStep_soundActive_eq_false h.le⟩

end Sys2Proof.Machine
end

section
/-! PROOFS. An illegal word: what decodes is the encoding of an instruction, so a word of no row is a decode error. -/

namespace Sys2Proof

/-! ## From the fields the decoder selects on to the whole word (30_encoding.md R72, R73) -/

/-- A word of format `NNN` by its high nibble. -/
theorem packNNN_eq_of_op {w : Word} {op : BitVec 4} (hop : (opField w).toNat = op.toNat) :
    packNNN op (nnnField w) = w := by
  rw [← BitVec.eq_of_toNat_eq hop, packNNN_fields]

/-- A word of format `XKK` by its high nibble. -/
theorem packXKK_eq_of_op {w : Word} {op : BitVec 4} (hop : (opField w).toNat = op.toNat) :
    packXKK op (xField w) (kkField w) = w := by
  rw [← BitVec.eq_of_toNat_eq hop, packXKK_fields]

/-- A word of format `X` by its high nibble and the sub-operation code in its low byte. -/
theorem packXKK_eq_of_op_kk {w : Word} {op : BitVec 4} {kk : Byte} (hop : (opField w).toNat = op.toNat)
    (hkk : (kkField w).toNat = kk.toNat) : packXKK op (xField w) kk = w := by
  rw [← BitVec.eq_of_toNat_eq hkk, packXKK_eq_of_op hop]

/-- A word of format `XYN` by its high nibble. -/
theorem packXYN_eq_of_op {w : Word} {op : BitVec 4} (hop : (opField w).toNat = op.toNat) :
    packXYN op (xField w) (yField w) (nField w) = w := by
  rw [← BitVec.eq_of_toNat_eq hop, packXYN_fields]

/-- A word of format `XY` by its high nibble and the sub-operation code in its low nibble. -/
theorem packXYN_eq_of_op_n {w : Word} {op n : BitVec 4} (hop : (opField w).toNat = op.toNat)
    (hn : (nField w).toNat = n.toNat) : packXYN op (xField w) (yField w) n = w := by
  rw [← BitVec.eq_of_toNat_eq hn, packXYN_eq_of_op hop]

/-! ## A word that decodes is the encoding of its instruction (30_encoding.md R79, R82) -/

/-- Family 8: `N` is the code of the row. -/
theorem encode_of_decodeFamily8 {w : Word} {i : Instr} (hop : (opField w).toNat = 8)
    (h : decodeFamily8 w = .ok i) : encode i = w := by
  unfold decodeFamily8 at h
  split at h <;> cases h
  all_goals next hn => exact packXYN_eq_of_op_n hop hn

/-- Family E: `KK` is the code of the row. -/
theorem encode_of_decodeFamilyE {w : Word} {i : Instr} (hop : (opField w).toNat = 14)
    (h : decodeFamilyE w = .ok i) : encode i = w := by
  unfold decodeFamilyE at h
  split at h <;> cases h
  all_goals next hkk => exact packXKK_eq_of_op_kk hop hkk

/-- Family F: `KK` is the code of the row. -/
theorem encode_of_decodeFamilyF {w : Word} {i : Instr} (hop : (opField w).toNat = 15)
    (h : decodeFamilyF w = .ok i) : encode i = w := by
  unfold decodeFamilyF at h
  split at h <;> cases h
  all_goals next hkk => exact packXKK_eq_of_op_kk hop hkk

/-- The switch on the high nibble: each family by its format. Case `h_1` is the high nibble 0, and so on up to
`h_16`, which is F. -/
theorem encode_of_decodeFamily {w : Word} {i : Instr} (h : decodeFamily w = .ok i) : encode i = w := by
  have hlt := (opField w).isLt
  unfold decodeFamily at h
  split at h
  case h_1 => cases h
  case h_2 hop | h_3 hop | h_11 hop | h_12 hop => cases h; exact packNNN_eq_of_op hop
  case h_4 hop | h_5 hop | h_7 hop | h_8 hop | h_13 hop => cases h; exact packXKK_eq_of_op hop
  case h_6 hop | h_10 hop =>
    split at h <;> cases h
    next hn => exact packXYN_eq_of_op_n hop (congrArg BitVec.toNat hn)
  case h_9 hop => exact encode_of_decodeFamily8 hop h
  case h_14 hop => cases h; exact packXYN_eq_of_op hop
  case h_15 hop => exact encode_of_decodeFamilyE hop h
  case h_16 =>
    have hop : (opField w).toNat = 15 := by grind
    exact encode_of_decodeFamilyF hop h

/-- The encoder gives back the word an instruction was decoded from: the decoder ignores no bit of a word. -/
theorem encode_of_decode {w : Word} {i : Instr} (h : decode w = .ok i) : encode i = w := by
  unfold decode at h
  split at h
  next hcls => cases h; exact hcls.symm
  next =>
    split at h
    next hret => cases h; exact hret.symm
    next => exact encode_of_decodeFamily h

/-- Every encoding is a legal word, by its instruction's row of the opcode table. -/
theorem legalWord_encode (i : Instr) : WellFormed.legalWord (encode i) = true := by
  cases i with
  | cls => exact Laws.EncodeLegal.cls
  | ret => exact Laws.EncodeLegal.ret
  | jp nnn => exact Laws.EncodeLegal.jp nnn
  | call nnn => exact Laws.EncodeLegal.call nnn
  | seByte x kk => exact Laws.EncodeLegal.seByte x kk
  | sneByte x kk => exact Laws.EncodeLegal.sneByte x kk
  | seReg x y => exact Laws.EncodeLegal.seReg x y
  | ldByte x kk => exact Laws.EncodeLegal.ldByte x kk
  | addByte x kk => exact Laws.EncodeLegal.addByte x kk
  | ldReg x y => exact Laws.EncodeLegal.ldReg x y
  | orReg x y => exact Laws.EncodeLegal.orReg x y
  | andReg x y => exact Laws.EncodeLegal.andReg x y
  | xorReg x y => exact Laws.EncodeLegal.xorReg x y
  | addReg x y => exact Laws.EncodeLegal.addReg x y
  | subReg x y => exact Laws.EncodeLegal.subReg x y
  | shrReg x y => exact Laws.EncodeLegal.shrReg x y
  | subnReg x y => exact Laws.EncodeLegal.subnReg x y
  | shlReg x y => exact Laws.EncodeLegal.shlReg x y
  | sneReg x y => exact Laws.EncodeLegal.sneReg x y
  | ldI nnn => exact Laws.EncodeLegal.ldI nnn
  | jpV0 nnn => exact Laws.EncodeLegal.jpV0 nnn
  | rnd x kk => exact Laws.EncodeLegal.rnd x kk
  | drw x y n => exact Laws.EncodeLegal.drw x y n
  | skp x => exact Laws.EncodeLegal.skp x
  | sknp x => exact Laws.EncodeLegal.sknp x
  | ldVxDT x => exact Laws.EncodeLegal.ldVxDT x
  | ldVxK x => exact Laws.EncodeLegal.ldVxK x
  | ldDTVx x => exact Laws.EncodeLegal.ldDTVx x
  | ldSTVx x => exact Laws.EncodeLegal.ldSTVx x
  | addIVx x => exact Laws.EncodeLegal.addIVx x
  | ldFVx x => exact Laws.EncodeLegal.ldFVx x
  | ldBVx x => exact Laws.EncodeLegal.ldBVx x
  | storeRegs x => exact Laws.EncodeLegal.storeRegs x
  | loadRegs x => exact Laws.EncodeLegal.loadRegs x

/-- A word that decodes is legal. -/
theorem legalWord_of_decode {w : Word} {i : Instr} (h : decode w = .ok i) : WellFormed.legalWord w = true :=
  encode_of_decode h ▸ legalWord_encode i

/-- The decoder rejects every word that matches no row of the opcode table (30_encoding.md R82, decision D6). -/
theorem decode_eq_error_of_illegal {w : Word} (h : WellFormed.legalWord w = false) : ∃ r, decode w = .error r := by
  cases hd : decode w with
  | error r => exact ⟨r, rfl⟩
  | ok i =>
    rw [legalWord_of_decode hd] at h
    cases h

end Sys2Proof

namespace Sys2Proof.Machine

open Sys2Proof.Spec

/-- With an illegal word at an address in range, the decode phase stops the cycle with the raw word and the fetch address
(60_exceptions.md R208). -/
theorem fetchDecodeExecute_of_illegal {s : State} (hpc : s.pc.toNat + 1 < 4096)
    (hw : WellFormed.legalWord (wordAt s s.pc.toNat) = false) :
    fetchDecodeExecute s = .next (s.raiseAtFetch (.decodeError (wordAt s s.pc.toNat) s.pc)) := by
  obtain ⟨r, hr⟩ := decode_eq_error_of_illegal hw
  rw [fetchDecodeExecute, fetchAt_ok hpc, composeWord_read]
  simp only [hr]

/-- Settles O9: the decoder accepts encodings only, which are legal words, so a cycle at an illegal word ends in its decode
phase; latching the cycle's inputs changes neither `pc` nor the word there. -/
theorem illegalWordHaltsWithDecodeError : Obligations.IllegalWordHaltsWithDecodeError := by
  intro s hs hpc hw
  obtain ⟨u, ⟨⟨k, r, d, q, rfl⟩, -⟩, hstep⟩ := step_running hs
  exact ⟨_, hstep.trans (fetchDecodeExecute_of_illegal hpc hw), rfl, rfl⟩

end Sys2Proof.Machine
end

section
/-! PROOFS. The host's timer step in every `STATUS`, and the load of an image that is too large or empty. -/

namespace Sys2Proof.Machine

/-! ## The timer step (60_exceptions.md R215, R217) -/

/-- Settles O16: the step is the queued timer step, which counts both timers down whatever `STATUS` is. -/
theorem timerStepCountsDown : Obligations.TimerStepCountsDown := by
  intro s rest hq
  exact ⟨_, step_move hq, timerStep_dt_toNat _, timerStep_st_toNat _, rfl⟩

/-! ## The load errors (60_exceptions.md R205) -/

/-- An image of more than 3584 bytes fails the check of the load. -/
theorem loadReason_of_tooLarge {image : List Byte} (h : 3584 < image.length) : loadReason image = some .tooLarge :=
  if_pos h

/-- An image of no bytes fails the check of the load. -/
theorem loadReason_of_empty {image : List Byte} (h : image.length = 0) : loadReason image = some .empty := by
  rw [loadReason, if_neg (by omega), if_pos h]

/-- A load that fails its check writes nothing but `STATUS` and `ERR`. -/
theorem loadImage_error {s : State} {image : List Byte} {reason : LoadReason} (hs : s.status = .unloaded)
    (hr : loadReason image = some reason) :
    loadImage image s = .next (s.halt { pcFetch := none, info := .loadError reason image.length }) := by
  simp only [loadImage, hs, hr]

/-- Settles O18: the step is the queued load, which fails its check for the one reason or the other. -/
theorem badImageHaltsWithLoadError : Obligations.BadImageHaltsWithLoadError := by
  intro s image rest hs hq
  have hfail (reason : LoadReason) (hr : loadReason image = some reason) :=
    (step_move hq).trans (loadImage_error (s := { s with inbox := rest }) hs hr)
  refine ⟨?tooLarge, ?empty⟩
  case tooLarge =>
    intro h
    exact hfail .tooLarge (loadReason_of_tooLarge h)
  case empty =>
    intro h
    exact h ▸ hfail .empty (loadReason_of_empty h)

end Sys2Proof.Machine
end

section
/-! PROOFS. What construction leaves in the state (70_reset_and_hazards.md R240). -/

namespace Sys2Proof.Machine

/-! ## What construction writes -/

/-- Over the default reset state construction writes the parameters, the font, and under `P_RESET_REGS = ARBITRARY` the draws of
D17: `V`, `I`, `DT`, `ST` and `FB`. -/
theorem construct_frame (p : Params) :
    ∃ v i dt st fb, construct p =
      { State.reset with
        params := p, mem := Memory.writeBytes [] Config.fontBase p.font.toList, v := v, i := i, dt := dt, st := st, fb := fb } := by
  cases h : p.resetRegs with
  | zero => exact ⟨_, _, _, _, _, by rw [construct, h]⟩
  | arbitrary => exact ⟨_, _, _, _, _, by rw [construct, h]⟩

/-- Under `P_RESET_REGS = ZERO` construction writes the parameters and the font only. -/
theorem construct_of_zero {p : Params} (h : p.resetRegs = .zero) :
    construct p =
      { State.reset with params := p, mem := Memory.writeBytes [] Config.fontBase p.font.toList } := by
  rw [construct, h]

/-- The standard font in empty memory is already there: it is the reset contents, so no cell is listed (20_memory.md R59; log 26). -/
theorem writeBytes_standardFont : Memory.writeBytes [] Config.fontBase Config.standardFont.toList = [] := by
  have hlen : Config.fontBase + Config.standardFont.toList.length ≤ Config.memSize := by decide
  refine Memory.ext (Memory.wf_writeBytes rfl hlen) rfl fun x => ?_
  rw [Memory.read_writeBytes rfl hlen, Memory.read_nil, Config.resetByte, Vector.length_toList]
  split <;> rfl

/-- Construction with the default parameters is the reset state. -/
theorem construct_default : construct Params.default = State.reset := by
  have hfont : Memory.writeBytes [] Config.fontBase Params.default.font.toList = [] := writeBytes_standardFont
  rw [construct_of_zero rfl, hfont]
  rfl

/-! ## The reset values (10_state.md R41) -/

/-- Every register is 0 at reset. -/
theorem reset_reg (r : Reg) : State.reset.reg r = 0 := Vector.getElem_replicate r.isLt

/-- Every stack entry is 0 at reset. -/
theorem reset_stack (j : Fin 16) : State.reset.stack[j] = 0 := Vector.getElem_replicate j.isLt

/-- Every pixel is 0 at reset: the framebuffer is the clear one. -/
theorem reset_pixel (q : Pixel) : State.reset.fb.pixel q = false := Framebuffer.pixel_clear q

/-- Settles O59: the seven fields that hold for all parameters are not among those construction may draw, so they are the reset
ones; under `P_RESET_REGS = ZERO` it draws nothing and the registers and pixels are the reset ones too. -/
theorem constructionSetsResetValues : Obligations.ConstructionSetsResetValues := by
  intro p
  obtain ⟨v, i, dt, st, fb, hp⟩ := construct_frame p
  refine ⟨?status, ?err, ?pc, ?sp, ?stack, ?kwActive, ?kwMask, ?zero, construct_default⟩
  case stack =>
    rw [hp]
    exact reset_stack
  case zero =>
    intro hz
    rw [construct_of_zero hz]
    exact ⟨reset_reg, rfl, rfl, rfl, reset_pixel⟩
  all_goals
    rw [hp]
    rfl

end Sys2Proof.Machine
end

section
/-! PROOFS. The encoder and the decoder, and the rows of the opcode table. -/

namespace Sys2Proof

open Machine WellFormed

/-! ## The two round trips (30_encoding.md R72, R73, R82) -/

/-- Settles O1: `decode_encode`, by the format of each encoding. -/
theorem decodeEncodeRoundTrip : Obligations.DecodeEncodeRoundTrip := decode_encode

/-- Settles O2: `encode_of_decode`, by the fields the decoder selects on. -/
theorem encodeDecodeRoundTrip : Obligations.EncodeDecodeRoundTrip := fun _ _ => encode_of_decode

/-- Settles O5: the two bytes compose to the word again, which decodes to its instruction. -/
theorem decodeBytesReadsTwoBytes : Obligations.DecodeBytesReadsTwoBytes := by
  intro i rest
  have hbytes (rest : List Byte) : decodeBytes (wordBytes (encode i) ++ rest) = .ok (i, rest) := by
    rw [decodeBytes_wordBytes, decode_encode]
    rfl
  refine ⟨hbytes rest, ?_⟩
  rw [decodeTableWord, tableWord_toNat, ← List.append_nil (wordBytes _), hbytes]

/-- Settles O6: each word is a closed term, so the decoder computes its answer. -/
theorem sampleWordsDecode : Obligations.SampleWordsDecode := by
  unfold Obligations.SampleWordsDecode
  and_intros
  all_goals rfl

/-! ## A word that matches a row of the opcode table is an encoding (30_encoding.md R73, R82)

One lemma per format and mask: the bits under the mask are the high nibble and the sub-operation code of the row's pattern `p`. -/

section Rows

variable {w p : Word}

/-- The mask of the two exact words keeps every bit. -/
theorem eq_of_and (h : w &&& 0xFFFF = p) : p = w :=
  h.symm.trans w.and_allOnes

/-- The bits the mask of a whole family keeps. -/
theorem opField_of_and (h : w &&& 0xF000 = p) : opField w = opField p := by
  rw [← h, and_op, opField_packXYN]

/-- A word of format `NNN`. -/
theorem packNNN_of_and {op : BitVec 4} (h : w &&& 0xF000 = p) (hop : opField p = op) : packNNN op (nnnField w) = w :=
  packNNN_eq_of_op (by rw [opField_of_and h, hop])

/-- A word of format `XKK`. -/
theorem packXKK_of_and {op : BitVec 4} (h : w &&& 0xF000 = p) (hop : opField p = op) :
    packXKK op (xField w) (kkField w) = w :=
  packXKK_eq_of_op (by rw [opField_of_and h, hop])

/-- A word of format `XYN`. -/
theorem packXYN_of_and {op : BitVec 4} (h : w &&& 0xF000 = p) (hop : opField p = op) :
    packXYN op (xField w) (yField w) (nField w) = w :=
  packXYN_eq_of_op (by rw [opField_of_and h, hop])

/-- A word of format `XY`. -/
theorem packXYN_of_and_n {op n : BitVec 4} (h : w &&& 0xF00F = p) (hop : opField p = op) (hn : nField p = n) :
    packXYN op (xField w) (yField w) n = w := by
  rw [← h, and_xy] at hop hn
  exact packXYN_eq_of_op_n (by simp [← hop]) (by simp [← hn])

/-- A word of format `X`. -/
theorem packXKK_of_and_kk {op : BitVec 4} {kk : Byte} (h : w &&& 0xF0FF = p) (hop : opField p = op) (hkk : kkField p = kk) :
    packXKK op (xField w) kk = w := by
  rw [← h, and_kk] at hop hkk
  exact packXKK_eq_of_op_kk (by simp [← hop]) (by simp [← hkk])

/-- The rows of families 0 to 5. -/
theorem exists_encode_of_rowsControl (w : Word) :
    ∀ r ∈ opcodeRowsControl, w &&& r.mask = r.pattern → ∃ i, encode i = w := by
  simp only [opcodeRowsControl, List.forall_mem_cons]
  exact ⟨fun h => ⟨.cls, eq_of_and h⟩, fun h => ⟨.ret, eq_of_and h⟩, fun h => ⟨.jp _, packNNN_of_and h rfl⟩,
    fun h => ⟨.call _, packNNN_of_and h rfl⟩, fun h => ⟨.seByte _ _, packXKK_of_and h rfl⟩,
    fun h => ⟨.sneByte _ _, packXKK_of_and h rfl⟩, fun h => ⟨.seReg _ _, packXYN_of_and_n h rfl rfl⟩, nofun⟩

/-- The rows of families 6 to 8. -/
theorem exists_encode_of_rowsAlu (w : Word) : ∀ r ∈ opcodeRowsAlu, w &&& r.mask = r.pattern → ∃ i, encode i = w := by
  simp only [opcodeRowsAlu, List.forall_mem_cons]
  exact ⟨fun h => ⟨.ldByte _ _, packXKK_of_and h rfl⟩, fun h => ⟨.addByte _ _, packXKK_of_and h rfl⟩,
    fun h => ⟨.ldReg _ _, packXYN_of_and_n h rfl rfl⟩, fun h => ⟨.orReg _ _, packXYN_of_and_n h rfl rfl⟩,
    fun h => ⟨.andReg _ _, packXYN_of_and_n h rfl rfl⟩, fun h => ⟨.xorReg _ _, packXYN_of_and_n h rfl rfl⟩,
    fun h => ⟨.addReg _ _, packXYN_of_and_n h rfl rfl⟩, fun h => ⟨.subReg _ _, packXYN_of_and_n h rfl rfl⟩,
    fun h => ⟨.shrReg _ _, packXYN_of_and_n h rfl rfl⟩, fun h => ⟨.subnReg _ _, packXYN_of_and_n h rfl rfl⟩,
    fun h => ⟨.shlReg _ _, packXYN_of_and_n h rfl rfl⟩, nofun⟩

/-- The rows of families 9 to E. -/
theorem exists_encode_of_rowsMid (w : Word) : ∀ r ∈ opcodeRowsMid, w &&& r.mask = r.pattern → ∃ i, encode i = w := by
  simp only [opcodeRowsMid, List.forall_mem_cons]
  exact ⟨fun h => ⟨.sneReg _ _, packXYN_of_and_n h rfl rfl⟩, fun h => ⟨.ldI _, packNNN_of_and h rfl⟩,
    fun h => ⟨.jpV0 _, packNNN_of_and h rfl⟩, fun h => ⟨.rnd _ _, packXKK_of_and h rfl⟩,
    fun h => ⟨.drw _ _ (nField w).toFin, packXYN_of_and h rfl⟩, fun h => ⟨.skp _, packXKK_of_and_kk h rfl rfl⟩,
    fun h => ⟨.sknp _, packXKK_of_and_kk h rfl rfl⟩, nofun⟩

/-- The rows of family F. -/
theorem exists_encode_of_rowsF (w : Word) : ∀ r ∈ opcodeRowsF, w &&& r.mask = r.pattern → ∃ i, encode i = w := by
  simp only [opcodeRowsF, List.forall_mem_cons]
  exact ⟨fun h => ⟨.ldVxDT _, packXKK_of_and_kk h rfl rfl⟩, fun h => ⟨.ldVxK _, packXKK_of_and_kk h rfl rfl⟩,
    fun h => ⟨.ldDTVx _, packXKK_of_and_kk h rfl rfl⟩, fun h => ⟨.ldSTVx _, packXKK_of_and_kk h rfl rfl⟩,
    fun h => ⟨.addIVx _, packXKK_of_and_kk h rfl rfl⟩, fun h => ⟨.ldFVx _, packXKK_of_and_kk h rfl rfl⟩,
    fun h => ⟨.ldBVx _, packXKK_of_and_kk h rfl rfl⟩, fun h => ⟨.storeRegs _, packXKK_of_and_kk h rfl rfl⟩,
    fun h => ⟨.loadRegs _, packXKK_of_and_kk h rfl rfl⟩, nofun⟩

end Rows

/-- A row matches a word when the word's bits under its mask are its pattern. -/
theorem matchesWord_iff {r : Row} {w : Word} : r.matchesWord w = true ↔ w &&& r.mask = r.pattern := beq_iff_eq

/-- A legal word is the encoding of an instruction, by the row it matches. -/
theorem exists_encode_of_legal {w : Word} (h : legalWord w = true) : ∃ i, encode i = w := by
  obtain ⟨r, hr, hrow⟩ := List.any_eq_true.1 h
  rw [matchesWord_iff] at hrow
  simp only [opcodeRows, List.mem_append] at hr
  obtain ((hr | hr) | hr) | hr := hr
  · exact exists_encode_of_rowsControl w r hr hrow
  · exact exists_encode_of_rowsAlu w r hr hrow
  · exact exists_encode_of_rowsMid w r hr hrow
  · exact exists_encode_of_rowsF w r hr hrow

/-- Settles O3: what decodes is an encoding, which is legal, and a legal word is an encoding, which decodes. -/
theorem decodeAcceptsExactlyLegalWords : Obligations.DecodeAcceptsExactlyLegalWords := by
  intro w
  refine ⟨fun ⟨i, hi⟩ => legalWord_of_decode hi, fun h => ?_⟩
  obtain ⟨i, rfl⟩ := exists_encode_of_legal h
  exact ⟨i, decode_encode i⟩

/-! ## The rows do not overlap (30_encoding.md R78) -/

/-- The patterns of any two rows of the table differ in a bit that both masks keep. -/
theorem opcodeRows_pairwise :
    opcodeRows.Pairwise fun r q => r.pattern &&& q.mask ≠ q.pattern &&& r.mask := by
  decide

/-- Settles O4: a word that matches two rows has the pattern of each in the bits both masks keep. -/
theorem opcodeRowsDoNotOverlap : Obligations.OpcodeRowsDoNotOverlap := by
  intro w r q hr hq hwr hwq
  by_contra hne
  have : Std.Symm fun r q : Row => r.pattern &&& q.mask ≠ q.pattern &&& r.mask := ⟨fun _ _ => Ne.symm⟩
  refine opcodeRows_pairwise.forall hr hq hne ?_
  rw [← matchesWord_iff.1 hwr, ← matchesWord_iff.1 hwq, BitVec.and_assoc, BitVec.and_assoc, BitVec.and_comm r.mask]

end Sys2Proof
end

section
/-! PROOFS. The invariants that every step keeps, and the states after construction. -/

namespace Sys2Proof.Machine

open Sys2Proof.Spec

/-! ## What an instruction keeps -/

/-- A block store in range writes canonical memory, and nothing else an instruction does writes memory (20_memory.md R53). -/
theorem Effect.memCanonical {s t : State} (he : Effect s t) (hs : s.MemCanonical) : t.MemCanonical := by
  cases he with
  | store bs hbs h =>
    rw [h]
    exact Memory.wf_writeBytes hs hbs
  | raised _ h | regs h | skip h _ | jump h _ | call _ h _ | ret _ h | draw h | timer h | keyDone h | keyWait h =>
    rw [h]
    exact hs

/-- An instruction fills `ERR` exactly when it ends the run (10_state.md R37). -/
theorem Effect.errIffHalted {s t : State} (he : Effect s t) (hs : s.ErrIffHalted) : t.ErrIffHalted := by
  cases he with
  | raised _ h =>
    rw [h]
    exact iff_of_true rfl rfl
  | regs h | skip h _ | jump h _ | call _ h _ | ret _ h | store _ _ h | draw h | timer h | keyDone h | keyWait h =>
    rw [h]
    exact hs

/-- A key wait that completes clears its sample, and one that goes on is pending (44_timers_keys.md R185). -/
theorem Effect.keyWaitClear {s t : State} (he : Effect s t) (hs : s.KeyWaitClear) : t.KeyWaitClear := by
  cases he with
  | keyDone h => rw [h]; exact fun _ => rfl
  | keyWait h => rw [h]; exact nofun
  | raised _ h | regs h | skip h _ | jump h _ | call _ h _ | ret _ h | store _ _ h | draw h | timer h =>
    rw [h]
    exact hs

/-- The top entry of a stack in use is one of its return addresses (10_state.md R29). -/
theorem top_toNat_le {s : State} (hs : s.PcBounded) (hsp : 0 < s.sp.val) : s.top.toNat ≤ 0x1000 :=
  hs.2 ⟨s.sp.val - 1, by omega⟩ (Nat.sub_lt hsp Nat.one_pos)

/-- Advancing by 2 adds at most 2. -/
theorem toNat_add_two_le {a : Word} {n : Nat} (h : a.toNat ≤ n) : (a + 2).toNat ≤ n + 2 := by
  rw [BitVec.toNat_add]
  exact (Nat.mod_le _ _).trans (Nat.add_le_add_right h 2)

/-- A fetch in range leaves `pc` at or below 0x1000, so a skip stays in the bound, a call pushes at most 0x1000, and going back
to the fetch address goes back to a `pc` in range (10_state.md R27). -/
theorem Effect.pcBounded {s t : State} (he : Effect s.advanced t) (hs : s.PcBounded) (hpc : s.pc.toNat + 1 < 4096) :
    t.PcBounded := by
  have hadv : s.advanced.pc.toNat ≤ 0x1000 := toNat_add_two_le (n := 0xFFE) (by omega)
  obtain ⟨hpc0, hstack⟩ := hs
  cases he with
  | raised _ h | keyWait h =>
    rw [h]
    exact ⟨by simpa using hpc0, hstack⟩
  | regs h | store _ _ h | draw h | timer h | keyDone h =>
    rw [h]
    exact ⟨hadv.trans (by decide), hstack⟩
  | skip h hpc =>
    rw [h]
    refine ⟨?_, hstack⟩
    obtain hpc | hpc := hpc
    · exact hpc ▸ hadv.trans (by decide)
    · exact hpc ▸ (toNat_add_two_le hadv).trans (by decide)
  | jump h hpc =>
    rw [h]
    exact ⟨hpc, hstack⟩
  | call hsp h hpc =>
    rw [h]
    refine ⟨hpc.trans (by decide), fun j hj => (congrArg BitVec.toNat (pushed_stack_getElem hsp j)).trans_le ?_⟩
    split
    · exact hadv
    · next hne => exact hstack j (Nat.lt_of_le_of_ne (Nat.lt_succ_iff.1 hj) hne)
  | ret hsp h =>
    rw [h]
    have htop := top_toNat_le (s := s.advanced) ⟨hadv.trans (by decide), hstack⟩ hsp
    exact ⟨htop.trans (by decide), fun j hj => hstack j (Nat.lt_of_lt_of_le hj (Nat.sub_le _ _))⟩

/-! ## The step lemmas -/

/-- Settles O54: a load writes at most 3584 bytes from 0x200, and an instruction stores in range only. -/
theorem stepKeepsMemCanonical : Obligations.StepKeepsMemCanonical := by
  intro s t
  refine step_invariant (P := State.MemCanonical) (fun _ _ _ _ _ hs => hs) (fun _ _ hs => hs) ?runs ?loads (fun _ hs => hs)
  case runs => exact fun s t i hs _ _ h => (exec_effect h).memCanonical hs
  case loads =>
    intro s t image hs h
    obtain ⟨-, ⟨-, hmax, rfl⟩ | ⟨reason, -, rfl⟩⟩ := loadImage_cases h
    · exact Memory.wf_writeBytes hs (by simp only [Config.memSize]; omega)
    · exact hs

/-- Settles O55: an instruction runs only after a fetch in range, and a load sets `pc` to the entry point. -/
theorem stepKeepsPcBounded : Obligations.StepKeepsPcBounded := by
  intro s t
  refine step_invariant (P := State.PcBounded) (fun _ _ _ _ _ hs => hs) (fun _ _ hs => hs) ?runs ?loads (fun _ hs => hs)
  case runs => exact fun s t i hs hpc _ h => (exec_effect h).pcBounded hs hpc
  case loads =>
    intro s t image hs h
    obtain ⟨-, ⟨-, -, rfl⟩ | ⟨reason, -, rfl⟩⟩ := loadImage_cases h
    · exact ⟨(by decide : (0x200 : Word).toNat ≤ 0x10FE), hs.2⟩
    · exact hs

/-- Settles O56: a failed fetch, decoding or load sets both, a good load leaves `UNLOADED`, in which `ERR` is empty. -/
theorem stepKeepsErrIffHalted : Obligations.StepKeepsErrIffHalted := by
  intro s t
  refine step_invariant (P := State.ErrIffHalted) (fun _ _ _ _ _ hs => hs) ?halts ?runs ?loads (fun _ hs => hs)
  case halts => exact fun s info _ => iff_of_true rfl rfl
  case runs => exact fun s t i hs _ _ h => (exec_effect h).errIffHalted hs
  case loads =>
    intro s t image hs h
    obtain ⟨hstatus, ⟨-, -, rfl⟩ | ⟨reason, -, rfl⟩⟩ := loadImage_cases h
    · simpa [State.ErrIffHalted, hstatus] using hs
    · exact iff_of_true rfl rfl

/-- Settles O57: only `FX0A` writes the key wait. -/
theorem stepKeepsKeyWaitClear : Obligations.StepKeepsKeyWaitClear := by
  intro s t
  refine step_invariant (P := State.KeyWaitClear) (fun _ _ _ _ _ hs => hs) (fun _ _ hs => hs) ?runs ?loads (fun _ hs => hs)
  case runs => exact fun s t i hs _ _ h => (exec_effect h).keyWaitClear hs
  case loads =>
    intro s t image hs h
    obtain ⟨-, ⟨-, -, rfl⟩ | ⟨reason, -, rfl⟩⟩ := loadImage_cases h
    · exact hs
    · exact hs

/-- Settles O58: an instruction runs in `RUN` only, and neither a load nor an error leaves `UNLOADED` behind. -/
theorem stepKeepsUntouchedBeforeLoad : Obligations.StepKeepsUntouchedBeforeLoad := by
  intro s t
  refine step_invariant (P := State.UntouchedBeforeLoad) (fun _ _ _ _ _ hs => hs) (fun _ _ _ => nofun) ?runs ?loads
    (fun _ hs => hs)
  case runs =>
    intro s t i _ _ hrun h hunloaded
    obtain ⟨info, rfl⟩ | hstatus := (exec_effect h).raised_or_status_eq
    · cases hunloaded
    · rw [hunloaded, State.advanced_status, hrun] at hstatus
      cases hstatus
  case loads =>
    intro s t image _ h
    obtain ⟨-, ⟨-, -, rfl⟩ | ⟨reason, -, rfl⟩⟩ := loadImage_cases h
    · exact nofun
    · exact nofun

/-! ## After construction (70_reset_and_hazards.md R240) -/

/-- The font fits in memory. -/
theorem fontBase_add_length_le (p : Params) : Config.fontBase + p.font.toList.length ≤ Config.memSize := by
  rw [Vector.length_toList]
  decide

/-- Memory after construction is the font written into empty memory. -/
theorem construct_mem (p : Params) : (construct p).mem = Memory.writeBytes [] Config.fontBase p.font.toList := by
  obtain ⟨v, i, dt, st, fb, hp⟩ := construct_frame p
  rw [hp]

/-- The constructed memory is canonical. -/
theorem construct_memCanonical (p : Params) : (construct p).MemCanonical := by
  rw [State.MemCanonical, construct_mem]
  exact Memory.wf_writeBytes rfl (fontBase_add_length_le p)

/-- Settles O53: construction writes none of the fields the invariants speak of but memory, and `State.reset` is the construction
with the default parameters. -/
theorem resetMeetsInvariants : Obligations.ResetMeetsInvariants := by
  suffices h : ∀ p, (construct p).MemCanonical ∧ (construct p).ErrIffHalted ∧ (construct p).KeyWaitClear ∧
      (construct p).PcBounded ∧ (construct p).UntouchedBeforeLoad from ⟨construct_default ▸ h Params.default, h⟩
  intro p
  refine ⟨construct_memCanonical p, ?_⟩
  obtain ⟨v, i, dt, st, fb, hp⟩ := construct_frame p
  rw [hp]
  exact ⟨iff_of_false nofun nofun, fun _ => rfl, ⟨(by decide : (0x200 : Word).toNat ≤ 0x10FE), nofun⟩,
    fun _ => ⟨rfl, rfl, rfl⟩⟩

/-- Outside the font the reset contents are 0 (20_memory.md R59). -/
theorem resetByte_of_outside {a : Nat} (h : ¬(0x50 ≤ a ∧ a < 0xA0)) : Config.resetByte a = 0 := if_neg h

/-- Settles O19: read after write for the font in empty memory. -/
theorem constructionPlacesFont : Obligations.ConstructionPlacesFont := by
  intro p a
  refine ⟨?font, construct_memCanonical p, ?params⟩
  case font =>
    rw [construct_mem, Memory.read_writeBytes rfl (fontBase_add_length_le p), Vector.length_toList, Memory.read_nil]
    split
    · rfl
    · next h => exact resetByte_of_outside h
  case params =>
    obtain ⟨v, i, dt, st, fb, hp⟩ := construct_frame p
    rw [hp]

end Sys2Proof.Machine
end

section
/-! PROOFS. The cycle and the step: what runs, when a step stops, and what a fatal error leaves. -/

namespace Sys2Proof.Machine

open Sys2Proof.Spec

/-! ## The next step is a cycle (30_encoding.md R76, R86) -/

/-- The oldest pending transition: a cycle, queued or the driver's own, or one of the three other transitions of the host. -/
theorem pending_cases (s : State) :
    cyclePending s ∨ (∃ image rest, s.inbox = .load image :: rest) ∨ (∃ rest, s.inbox = .timerStep :: rest) ∨
      ∃ k rest, s.inbox = .setKeys k :: rest := by
  cases hq : s.inbox with
  | nil => exact .inl (.inl hq)
  | cons m rest =>
    cases m with
    | load image => exact .inr (.inl ⟨image, rest, rfl⟩)
    | cycle k r => exact .inl (.inr ⟨k, r, rest, hq⟩)
    | timerStep => exact .inr (.inr (.inl ⟨rest, rfl⟩))
    | setKeys k => exact .inr (.inr (.inr ⟨k, rest, rfl⟩))

/-- Whether queued or the driver's own, a cycle takes its move off the queue; its keys are the queued ones, or the keys as they
stand. -/
theorem step_of_cyclePending {s : State} (h : cyclePending s) :
    ∃ k r d, (s.inbox = [] → k = s.keys) ∧ (∀ k' q rest, s.inbox = .cycle k' q :: rest → k = k') ∧
      step s = cycle k r { s with draws := d, inbox := s.inbox.tail } := by
  obtain hidle | ⟨k, r, rest, hcycle⟩ := h
  · refine ⟨s.keys, Config.randomByte s.draws, s.draws + 1, fun _ => rfl, fun _ _ _ h => ?_, (step_idle hidle).trans ?_⟩
    · rw [hidle] at h
      cases h
    · have htail : s.inbox.tail = s.inbox := by rw [hidle]; rfl
      rw [htail]
  · refine ⟨k, r, s.draws, fun h => ?_, fun _ _ _ h => ?_, (step_move hcycle).trans ?_⟩
    · rw [hcycle] at h
      cases h
    · rw [hcycle] at h
      cases h
      rfl
    · rw [hcycle]
      rfl

/-- Settles O11: the gate of a cycle, queued or not, looks at `STATUS` first. -/
theorem cycleNeedsRun : Obligations.CycleNeedsRun := by
  intro s hs
  obtain ⟨k, r, d, -, -, hstep⟩ := step_of_cyclePending hs
  rw [hstep]
  exact ⟨fun h => by simp only [cycle, h], fun h => by simp only [cycle, h]⟩

/-- A step that is a cycle and answers a next state is a cycle in `RUN`. -/
theorem running_of_next {s t : State} (hs : cyclePending s) (h : step s = .next t) : running s := by
  obtain ⟨k, r, d, -, -, hstep⟩ := step_of_cyclePending hs
  exact ⟨(cycle_next (hstep.symm.trans h)).1, hs⟩

/-- A queued cycle executes the instruction the word at `pc` decodes to, with its inputs latched (30_encoding.md R76). -/
theorem step_cycle_of_decode {s : State} {i : Instr} {k : KeyState} {r : Byte} {rest : List HostMove} (hr : s.status = .run)
    (hpc : s.pc.toNat + 1 < 4096) (hi : decode (wordAt s s.pc.toNat) = .ok i) (hq : s.inbox = .cycle k r :: rest) :
    step s = exec i { s with pc := s.pc + 2, keys := k, rand := r, inbox := rest } :=
  (step_cycle_run hr hq).trans
    (fetchDecodeExecute_of_decode (s := { s with keys := k, rand := r, inbox := rest }) hpc hi)

/-- Settles O7: a driver cycle and a queued cycle. -/
theorem stepRunsDecodedInstruction : Obligations.StepRunsDecodedInstruction := by
  intro s i hr hpc hi
  exact ⟨fun hq => step_idle_of_decode hr hq hpc hi, fun _ _ _ hq => step_cycle_of_decode hr hpc hi hq⟩

/-! ## Every instruction answers a next state (60_exceptions.md R203) -/

/-- A push answers a next state, on a full stack too. -/
theorem pushThen_next (v : Word) (k : State → State) (s : State) : ∃ t, pushThen v k s = .next t := by
  by_cases h : s.sp.val < 16
  · exact ⟨_, pushThen_ok h⟩
  · exact ⟨_, pushThen_full (by omega)⟩

/-- A pop answers a next state, on an empty stack too. -/
theorem popThen_next (k : Word → State → State) (s : State) : ∃ t, popThen k s = .next t := by
  by_cases h : 0 < s.sp.val
  · exact ⟨_, popThen_ok h⟩
  · exact ⟨_, popThen_empty (by omega)⟩

/-- A guarded access answers a next state, with an address out of range too. -/
theorem guardBounds_next (n : Nat) (k : State → State) (s : State) : ∃ t, guardBounds n k s = .next t := by
  by_cases h : n = 0 ∨ s.i.toNat + n ≤ 4096
  · exact ⟨_, guardBounds_ok k h⟩
  · exact ⟨_, guardBounds_bad k (by omega) (by omega)⟩

/-- A skip on a key answers a next state, where the key number raises too. -/
theorem skipOnKey_next (p : Bool) (b : Byte) (s : State) : ∃ t, skipOnKey p b s = .next t := by
  cases h : s.keyIndex b with
  | some k => exact ⟨_, skipOnKey_eq h⟩
  | none => exact ⟨_, skipOnKey_raise h⟩

/-- A key wait answers a next state, whether it completes or goes on. -/
theorem exec_ldVxK_next (x : Reg) (s : State) : ∃ t, exec (.ldVxK x) s = .next t := by
  by_cases h : s.newKeys = 0
  · exact ⟨_, exec_ldVxK_waits h⟩
  · exact ⟨_, exec_ldVxK_completes h⟩

/-- Settles O14: the shared operations that can fail answer a next state when they do, and no other instruction fails. -/
theorem everyInstructionAnswersNext : Obligations.EveryInstructionAnswersNext := by
  intro i s
  cases i with
  | ret => exact popThen_next _ s
  | call => exact pushThen_next _ _ s
  | drw | ldBVx => exact guardBounds_next _ _ s
  | storeRegs => rw [exec, execStoreRegs]; exact guardBounds_next _ _ s
  | loadRegs => rw [exec, execLoadRegs]; exact guardBounds_next _ _ s
  | skp | sknp => exact skipOnKey_next _ _ s
  | ldVxK x => exact exec_ldVxK_next x s
  | cls | jp | seByte | sneByte | seReg | sneReg | jpV0 => exact ⟨_, rfl⟩
  | ldByte | addByte | ldReg | orReg | andReg | xorReg | addReg | subReg | shrReg | subnReg | shlReg | rnd => exact ⟨_, rfl⟩
  | ldI | ldVxDT | ldDTVx | ldSTVx | addIVx | ldFVx => exact ⟨_, rfl⟩

/-! ## When a step stops (30_encoding.md R86; 70_reset_and_hazards.md R241) -/

/-- Fetch, decode and execute answer a next state, whichever of them fails. -/
theorem fetchDecodeExecute_next (s : State) : ∃ t, fetchDecodeExecute s = .next t := by
  by_cases hpc : s.pc.toNat + 1 < 4096
  · cases hw : WellFormed.legalWord (wordAt s s.pc.toNat) with
    | false => exact ⟨_, fetchDecodeExecute_of_illegal hpc hw⟩
    | true =>
      obtain ⟨i, hi⟩ := (decodeAcceptsExactlyLegalWords _).2 hw
      obtain ⟨t, ht⟩ := everyInstructionAnswersNext i s.advanced
      exact ⟨t, (fetchDecodeExecute_of_decode hpc hi).trans ht⟩
  · exact ⟨_, fetchDecodeExecute_of_fetchAt_none (fetchAt_bad (by omega))⟩

/-- A load answers a next state in `UNLOADED`, whether the image is good or not. -/
theorem loadImage_next {s : State} (image : List Byte) (hs : s.status = .unloaded) : ∃ t, loadImage image s = .next t := by
  cases hr : loadReason image with
  | some reason => exact ⟨_, loadImage_error hs hr⟩
  | none => exact ⟨_, by simp only [loadImage, hs, hr]; rfl⟩

/-- A load outside `UNLOADED` is refused (decision D28, log 25). -/
theorem loadImage_refused {s : State} (image : List Byte) (hs : s.status ≠ .unloaded) :
    loadImage image s = .refused .loadNotUnloaded := by
  cases h : s.status with
  | unloaded => exact absurd h hs
  | run | halted => simp only [loadImage, h]

/-- Settles O13: a cycle stops at its status gate only, a load outside `UNLOADED` only, and the other two transitions never. -/
theorem stepStopsOnlyAtTheGates : Obligations.StepStopsOnlyAtTheGates := by
  intro s
  have refused (image rest) (hs : s.status ≠ .unloaded) (hq : s.inbox = .load image :: rest) :
      step s = .refused .loadNotUnloaded :=
    (step_move hq).trans (loadImage_refused (s := { s with inbox := rest }) image hs)
  refine ⟨?_, refused⟩
  obtain hcycle | ⟨image, rest, hq⟩ | ⟨rest, hq⟩ | ⟨k, rest, hq⟩ := pending_cases s
  · obtain ⟨hunloaded, hhalted⟩ := cycleNeedsRun s hcycle
    cases hs : s.status with
    | unloaded => exact .inr (.inr (.inl ⟨rfl, hcycle, hunloaded hs⟩))
    | halted => exact .inr (.inl ⟨rfl, hcycle, hhalted hs⟩)
    | run =>
      obtain ⟨u, -, hstep⟩ := step_running ⟨hs, hcycle⟩
      exact .inl (hstep ▸ fetchDecodeExecute_next u)
  · by_cases hs : s.status = .unloaded
    · exact .inl ((step_move hq).symm ▸ loadImage_next (s := { s with inbox := rest }) image hs)
    · exact .inr (.inr (.inr ⟨hs, refused image rest hs hq, image, rest, hq⟩))
  · exact .inl ⟨_, step_move hq⟩
  · exact .inl ⟨_, step_move hq⟩

/-! ## A fatal error, and the steps after it (60_exceptions.md R203, R204) -/

/-- Whichever phase of a cycle in `RUN` fails, it leaves the state as it was but for `STATUS` and the record
(decision D5, log 7). -/
theorem fetchDecodeExecute_halted {s t : State} (h : fetchDecodeExecute s = .next t) (hs : s.status = .run)
    (ht : t.status = .halted) : ∃ info, t = haltedAt s s.pc info := by
  obtain ⟨-, rfl⟩ | ⟨w, r, -, -, rfl⟩ | ⟨w, i, -, -, -, hexec⟩ := fetchDecodeExecute_cases h
  · exact ⟨_, rfl⟩
  · exact ⟨_, rfl⟩
  · obtain ⟨info, rfl⟩ := exec_halts_only_by_raise hexec hs ht
    refine ⟨info, ?_⟩
    rw [State.raise, fetchAddr_advanced]
    rfl

/-- Settles O10: the step is a cycle in `RUN` on the state with its inputs latched and its move off the queue. -/
theorem fatalErrorCommitsNothing : Obligations.FatalErrorCommitsNothing := by
  intro s t ⟨hrun, hpending⟩ hstep hhalt
  obtain ⟨k, r, d, hidle, hqueued, hcycle⟩ := step_of_cyclePending hpending
  obtain ⟨-, hfde⟩ := cycle_next (hcycle.symm.trans hstep)
  obtain ⟨info, rfl⟩ := fetchDecodeExecute_halted hfde hrun hhalt
  exact ⟨_, rfl, hidle, hqueued, rfl⟩

/-- Settles O12: a cycle needs `RUN` and a load `UNLOADED`, so a timer step or a key change was pending. -/
theorem haltedIsFinal : Obligations.HaltedIsFinal := by
  intro s t hs hstep
  obtain ⟨u, ⟨-, hrun⟩, -⟩ | ⟨image, rest, -, hload⟩ | ⟨rest, hq, rfl⟩ | ⟨k, rest, hq, rfl⟩ := step_cases hstep
  · rw [hs] at hrun
    cases hrun
  · have hunloaded : s.status = .unloaded := (loadImage_cases hload).1
    rw [hs] at hunloaded
    cases hunloaded
  · refine .inl ⟨⟨rest, hq⟩, ?_⟩
    rw [hq]
    rfl
  · exact .inr ⟨k, rest, hq, rfl⟩

/-- Settles O23: a push on a full stack and a pop from an empty one raise their error and do nothing else. -/
theorem stackErrorsCommitNothing : Obligations.StackErrorsCommitNothing :=
  fun _ _ => ⟨pushThen_full, popThen_empty⟩

/-- Settles O39: each of the four checks its `n` addresses before it moves a byte. -/
theorem outOfRangeAccessHalts : Obligations.OutOfRangeAccessHalts := by
  rintro s i n (⟨x, rfl, rfl⟩ | ⟨x, rfl, rfl⟩ | ⟨x, rfl, rfl⟩ | ⟨x, y, k, rfl, rfl, hk⟩) h
  · exact guardBounds_bad _ (by decide) h
  · rw [exec, execStoreRegs]; exact guardBounds_bad _ x.val.succ_pos h
  · rw [exec, execLoadRegs]; exact guardBounds_bad _ x.val.succ_pos h
  · exact exec_drw_bad hk h

/-! ## The placed word (log 2) -/

/-- A word can be fetched where one is placed. -/
theorem fetchSlot_lt (s : State) : fetchSlot s + 1 < 4096 := by
  rw [fetchSlot]
  split
  · assumption
  · decide

/-- The slot as a value of `pc`. -/
theorem fetchSlot_ofNat_toNat (s : State) : (BitVec.ofNat 16 (fetchSlot s)).toNat = fetchSlot s := by
  have := fetchSlot_lt s
  rw [BitVec.toNat_ofNat]
  omega

/-- The word placed stands at the slot, its high byte first. -/
theorem wordAt_placeWord {s : State} (hwf : s.mem.wf = true) (w : Word) : wordAt (placeWord w s) (fetchSlot s) = w := by
  have hslot := fetchSlot_lt s
  have hread := Memory.read_writeBytes (bs := wordBytes w) (a := fetchSlot s) hwf
    (by simp only [wordBytes, List.length_cons, List.length_nil, Config.memSize]; omega)
  rw [← composeWord_read, placeWord, hread, hread]
  simp [wordBytes]

/-- Settles O15: the state with the word placed is in `RUN` with nothing pending, so its step is a driver cycle at the slot. -/
theorem placedWordRunsNext : Obligations.PlacedWordRunsNext := by
  intro s i hwf
  rw [State.withFetchWord, tableWord_toNat]
  have hslot := fetchSlot_ofNat_toNat s
  refine step_idle_of_decode (s := placeWord (encode i) s) rfl rfl ?_ (decode_of_eq_encode ?_)
  · exact hslot ▸ fetchSlot_lt s
  · exact (congrArg (wordAt _) hslot).trans (wordAt_placeWord hwf _)

/-! ## Two cycles: a call and its return (40_control_flow.md R105) -/

/-- A run of two steps. -/
theorem core_run_two {s t u : State} (h : step s = .next t) (h' : step t = .next u) : Sys2Proof.core.run 2 s = .next u := by
  have hstep : Sys2Proof.core.step s = .next t := h
  have hstep' : Sys2Proof.core.step t = .next u := h'
  simp only [Host.Core.run, hstep, hstep']

/-- A driver cycle at a call with room on the stack pushes the address after the call and jumps. -/
theorem step_idle_call {s : State} {nnn : Imm12} (hr : s.status = .run) (hq : s.inbox = []) (hpc : s.pc.toNat + 1 < 4096)
    (hw : wordAt s s.pc.toNat = wordNNN 0x2 nnn) (hsp : s.sp.val < 16) :
    ∃ r d, step s = .next { (s.pushed (s.pc + 2) hsp).jump (nnn.setWidth 16) with rand := r, draws := d } :=
  ⟨_, _, (step_idle_of_decode hr hq hpc (hw ▸ decode_of_eq_encode (wordNNN_eq_packNNN 0x2 nnn))).trans
    (exec_call_ok (s := { s with pc := s.pc + 2, rand := _, draws := _ }) hsp)⟩

/-- A driver cycle at a return, after a push and a jump to it, goes back to the value pushed. -/
theorem step_idle_ret_pushed {s : State} {a q : Word} {r : Byte} {d : Nat} (hr : s.status = .run) (hq : s.inbox = [])
    (hsp : s.sp.val < 16) (hpc : q.toNat + 1 < 4096) (hw : wordAt s q.toNat = 0x00EE) :
    ∃ r' d', step { (s.pushed a hsp).jump q with rand := r, draws := d } =
      .next { s.pushed a hsp with pc := a, sp := s.sp, rand := r', draws := d' } := by
  have hstep := step_idle_of_decode (s := { (s.pushed a hsp).jump q with rand := r, draws := d }) hr hq hpc
    (decode_of_eq_encode (i := .ret) hw)
  have hret := exec_ret_pushed (s := { s with rand := Config.randomByte d, draws := d + 1 }) (a := a) hsp (q + 2)
  exact ⟨_, _, hstep.trans hret⟩

/-- Settles O24: the call leaves memory as it was, so the word at `NNN` is still the return, which pops what the call pushed. -/
theorem callThenReturnComesBack : Obligations.CallThenReturnComesBack := by
  intro s nnn hr hq hsp hpc hnnn hcall hret
  have htarget : (nnn.setWidth 16).toNat = nnn.toNat := BitVec.toNat_setWidth_of_le (by decide)
  rw [← htarget] at hnnn hret
  obtain ⟨r, d, hfirst⟩ := step_idle_call hr hq hpc hcall hsp
  obtain ⟨r', d', hsecond⟩ := step_idle_ret_pushed hr hq hsp hnnn hret
  exact ⟨_, core_run_two hfirst hsecond, rfl, rfl, rfl, rfl, rfl⟩

/-! ## Two cycles of a key wait (44_timers_keys.md R184, R185) -/

/-- A queued cycle with no key pressed at an `FX0A` with no wait pending begins the wait: `pc` is at the `FX0A` again. -/
theorem step_ldVxK_waits {s : State} {x : Reg} {r : Byte} {rest : List HostMove} (hr : s.status = .run)
    (hpc : s.pc.toNat + 1 < 4096) (hw : wordAt s s.pc.toNat = wordXKK 0xF x 0x0A) (hq : s.inbox = .cycle 0 r :: rest) :
    step s = .next { s with keys := 0, rand := r, inbox := rest, kwActive := true, kwMask := 0 } := by
  have hnone (k : Nat) (_ : k < 16) (h : keyIsNew { s with pc := s.pc + 2, keys := 0, rand := r, inbox := rest } k) :
      False := by simpa using h.1
  have hback : s.pc + 2 - 2 = s.pc := fetchAddr_advanced s
  rw [step_cycle_of_decode hr hpc (hw ▸ decode_wordXKK_ldVxK x) hq, (keyWaitReenters _ x).2 hnone, hback]

/-- A queued cycle at an `FX0A` whose wait was sampled with no key pressed stores the lowest key and goes on. -/
theorem step_ldVxK_completes {s : State} {x : Reg} {keys : KeyState} {q : Byte} {rest : List HostMove} {k : Nat}
    (hr : s.status = .run) (hpc : s.pc.toNat + 1 < 4096) (hw : wordAt s s.pc.toNat = wordXKK 0xF x 0x0A)
    (hactive : s.kwActive = true) (hmask : s.kwMask = 0) (hq : s.inbox = .cycle keys q :: rest) (hk : k < 16)
    (hpressed : keys.getLsbD k = true) (hlow : ∀ j, j < k → keys.getLsbD j = false) :
    ∃ u, step s = .next u ∧ u.pc = s.pc + 2 ∧ (u.reg x).toNat = k ∧ u.kwActive = false ∧ u.inbox = rest := by
  have hnew : keyIsNew { s with pc := s.pc + 2, keys := keys, rand := q, inbox := rest } k :=
    ⟨hpressed, .inr ⟨hactive, by simp [hmask]⟩⟩
  obtain ⟨u, hu, hstored, -, hframe⟩ := (keyWaitCompletesWithLowestKey _ x k).2 hk hnew fun j hj h => by
    simpa [hlow j hj] using h.1
  rw [hframe] at hstored
  exact ⟨_, (step_cycle_of_decode hr hpc (hw ▸ decode_wordXKK_ldVxK x) hq).trans (hu.trans (congrArg _ hframe)),
    rfl, hstored, rfl, rfl⟩

/-- Settles O49: the first cycle samples no key, so in the second every pressed key is new. -/
theorem keyWaitSuspendsThenResumes : Obligations.KeyWaitSuspendsThenResumes := by
  intro s x keys r q rest k hr hpc hw _ _ hq hk hpressed hlow
  obtain ⟨u, hu, hpc', hstored, hactive, hrest⟩ := step_ldVxK_completes (x := x) (keys := keys) (q := q) (rest := rest)
    (s := { s with keys := 0, rand := r, inbox := .cycle keys q :: rest, kwActive := true, kwMask := 0 })
    hr hpc hw rfl rfl rfl hk hpressed hlow
  exact ⟨_, u, step_ldVxK_waits hr hpc hw hq, rfl, rfl, rfl, hu, hpc', hstored, hactive, hrest⟩

end Sys2Proof.Machine
end

section
/-! PROOFS. The framebuffer: a sprite drawn twice, and the snapshot. -/

namespace Sys2Proof.Machine

open Sys2Proof.Spec

/-! ## A sprite drawn twice (43_display.md R176; 90_conflicts.md C9) -/

/-- A draw keeps `V[X]` and `V[Y]` when neither is `VF`, so a second draw of the same sprite touches the same pixels. -/
theorem touches_drawn {s : State} {x y : Reg} {n : Nat} (hx : x ≠ 15) (hy : y ≠ 15) {p : Pixel} :
    touches (s.drawn x y n) ((s.drawn x y n).reg x) ((s.drawn x y n).reg y) n p ↔
      touches s (s.reg x) (s.reg y) n p := by
  rw [regsKeptBut_drawn s x y n x (by simpa using hx), regsKeptBut_drawn s x y n y (by simpa using hy)]
  rfl

section Twice

variable {s : State} {x y : Reg} {n : Nat} (hx : x ≠ 15) (hy : y ≠ 15) (hn : n ≤ 16)

include hx hy hn

/-- Two draws toggle each touched pixel twice. -/
theorem fb_drawn_drawn : ((s.drawn x y n).drawn x y n).fb = s.fb := by
  refine Framebuffer.ext fun p => ?_
  by_cases hp : touches s (s.reg x) (s.reg y) n p
  · rw [pixel_drawn_of_touches hn ((touches_drawn hx hy).2 hp), pixel_drawn_of_touches hn hp, Bool.not_not]
  · rw [pixel_drawn_of_not_touches hn (mt (touches_drawn hx hy).1 hp), pixel_drawn_of_not_touches hn hp]

/-- A touched pixel is set after the first draw exactly when it was 0 before. -/
theorem collision_drawn_iff :
    (∃ p, touches (s.drawn x y n) ((s.drawn x y n).reg x) ((s.drawn x y n).reg y) n p ∧
        (s.drawn x y n).fb.pixel p = true) ↔
      ∃ p, touches s (s.reg x) (s.reg y) n p ∧ s.fb.pixel p = false := by
  refine exists_congr fun p => ?_
  rw [touches_drawn hx hy]
  refine and_congr_right fun hp => ?_
  rw [pixel_drawn_of_touches hn hp, Bool.not_eq_true']

end Twice

/-- Settles O43: both executions draw, since a draw leaves `I` as it was, and the second collides exactly at the touched pixels
that the first has set. -/
theorem drawTwiceRestores : Obligations.DrawTwiceRestores := by
  intro s t u x y n hx hy hb ht hu
  have hn : n.val ≤ 16 := n.isLt.le
  cases (exec_drw_ok hb).symm.trans ht
  cases (exec_drw_ok (s := s.drawn x y n.val) hb).symm.trans hu
  refine ⟨fb_drawn_drawn hx hy hn, ?_⟩
  rw [← collision_drawn_iff hx hy hn]
  by_cases hc : ∃ p, touches (s.drawn x y n.val) ((s.drawn x y n.val).reg x) ((s.drawn x y n.val).reg y) n.val p ∧
      (s.drawn x y n.val).fb.pixel p = true
  · have hvF := reg_drawn_vF_of_collision hn hc
    exact ⟨.inr hvF, iff_of_true hvF hc⟩
  · have hvF := reg_drawn_vF_of_no_collision hn hc
    exact ⟨.inl hvF, iff_of_false (by rw [hvF]; decide) hc⟩

/-! ## The snapshot (43_display.md R177) -/

/-- The rows of a framebuffer one after another. -/
theorem toList_flatten (fb : Framebuffer) : fb.flatten.toList = fb.toList.flatMap Vector.toList := by
  rw [Vector.flatten, Vector.toList, Array.toList_flatten, Array.toList_map, List.map_map, List.flatMap_def]
  rfl

/-- The snapshot is one byte per pixel of the rows one after another. -/
theorem snapshot_eq (s : State) : s.snapshot = s.fb.flatten.toList.map fun p => if p then 1 else 0 := by
  rw [toList_flatten, List.map_flatMap, State.snapshot]

/-- Pixel `(x, y)` stands at index `y * 64 + x` of the rows one after another. -/
theorem getElem_flatten_eq_pixel (fb : Framebuffer) (p : Pixel) (h : p.2.val * 64 + p.1.val < 32 * 64) :
    fb.flatten[p.2.val * 64 + p.1.val] = fb.pixel p := by
  have hrow : (p.2.val * 64 + p.1.val) / 64 = p.2.val := by omega
  have hcol : (p.2.val * 64 + p.1.val) % 64 = p.1.val := by omega
  simp only [Vector.getElem_flatten, hrow, hcol]
  rfl

/-- Settles O44: the snapshot lists the rows one after another, 32 of 64 pixels. -/
theorem snapshotIsRowMajor : Obligations.SnapshotIsRowMajor := by
  intro s
  rw [snapshot_eq]
  refine ⟨by simp, fun p => ?_⟩
  have hindex : p.2.val * 64 + p.1.val < 32 * 64 := by omega
  rw [← getElem_flatten_eq_pixel s.fb p hindex, List.getD_eq_getElem _ _ (by simpa using hindex), List.getElem_map,
    Vector.getElem_toList]

end Sys2Proof.Machine
end

section
/-! PROOFS. Which instructions write which piece of state. -/

namespace Sys2Proof.Machine

open Sys2Proof.Spec

/-! ## The operations that can raise an error: what they do, or the error -/

/-- A push and the rest, or the fatal error. -/
theorem pushThen_cases {v : Word} {k : State → State} {s t : State} (h : pushThen v k s = .next t) :
    (∃ hsp, t = k (s.pushed v hsp)) ∨ ∃ info, t = s.raise info := by
  by_cases hsp : s.sp.val < 16
  · rw [pushThen_ok hsp] at h
    exact .inl ⟨hsp, (Host.Outcome.next.inj h).symm⟩
  · rw [pushThen_full (by omega)] at h
    exact .inr ⟨_, (Host.Outcome.next.inj h).symm⟩

/-- A pop and the rest, or the fatal error. -/
theorem popThen_cases {k : Word → State → State} {s t : State} (h : popThen k s = .next t) :
    t = k s.top s.popped ∨ ∃ info, t = s.raise info := by
  by_cases hsp : 0 < s.sp.val
  · rw [popThen_ok hsp] at h
    exact .inl (Host.Outcome.next.inj h).symm
  · rw [popThen_empty (by omega)] at h
    exact .inr ⟨_, (Host.Outcome.next.inj h).symm⟩

/-- A skip taken or not, or the fatal error. -/
theorem skipOnKey_cases {p : Bool} {b : Byte} {s t : State} (h : skipOnKey p b s = .next t) :
    (∃ c, t = s.skipIf c) ∨ ∃ info, t = s.raise info := by
  cases hk : s.keyIndex b with
  | some k =>
    rw [skipOnKey_eq hk] at h
    exact .inl ⟨_, (Host.Outcome.next.inj h).symm⟩
  | none =>
    rw [skipOnKey_raise hk] at h
    exact .inr ⟨_, (Host.Outcome.next.inj h).symm⟩

/-- A block store and `UpdateI`, or the fatal error. -/
theorem exec_storeRegs_cases {x : Reg} {s t : State} (h : exec (.storeRegs x) s = .next t) :
    t = (s.storeBytes (s.regsUpTo x)).updateI x ∨ ∃ info, t = s.raise info := by
  rw [exec, execStoreRegs] at h
  exact (guardBounds_cases h).imp And.right fun ⟨_, _, hraise⟩ => ⟨_, hraise⟩

/-- A block load and `UpdateI`, or the fatal error. -/
theorem exec_loadRegs_cases {x : Reg} {s t : State} (h : exec (.loadRegs x) s = .next t) :
    t = (s.loadFirst (x.val + 1)).updateI x ∨ ∃ info, t = s.raise info := by
  rw [exec, execLoadRegs] at h
  exact (guardBounds_cases h).imp And.right fun ⟨_, _, hraise⟩ => ⟨_, hraise⟩

/-- A key wait that completes, or one that goes on. -/
theorem exec_ldVxK_cases {x : Reg} {s t : State} (h : exec (.ldVxK x) s = .next t) :
    t = { s.setReg x (lowestKey s.newKeys) with kwActive := false, kwMask := 0 } ∨
      t = { s with kwActive := true, kwMask := s.keys, pc := s.fetchAddr } := by
  by_cases hk : s.newKeys = 0
  · exact .inr (Host.Outcome.next.inj (h.symm.trans (exec_ldVxK_waits hk)))
  · exact .inl (Host.Outcome.next.inj (h.symm.trans (exec_ldVxK_completes hk)))

/-! ## The writers of `VF` (10_state.md R23) -/

/-- A write to one register changes `VF` only if that register is `VF`. -/
theorem eq_vF_of_reg_setReg_ne {s : State} {x : Reg} {b : Byte} (h : (s.setReg x b).reg 15 ≠ s.reg 15) : x = 15 := by
  by_contra hx
  exact h (regsKeptBut_setReg s x b 15 (by simpa [eq_comm] using hx))

/-- A block load of `V0` to `VX` changes `VF` only if `X` is F (42_index_memory.md R158). -/
theorem eq_vF_of_reg_loadFirst_ne {s : State} {x : Reg} (h : (s.loadFirst (x.val + 1)).reg 15 ≠ s.reg 15) : x = 15 := by
  rw [State.reg_loadFirst s _ (by omega)] at h
  by_contra hx
  exact h (if_neg fun (hlt : 15 < x.val + 1) => hx (Fin.ext (Nat.le_antisymm (Nat.lt_succ_iff.1 x.isLt) (Nat.lt_succ_iff.1 hlt))))

/-- Settles O50: the flag writers are listed whatever `X` is, a plain writer changes `VF` when its destination is `VF`, and the
other instructions leave the registers as they are. -/
theorem onlyListedInstructionsWriteVF : Obligations.OnlyListedInstructionsWriteVF := by
  intro i s t h hne
  have hv : t.v ≠ s.v := fun hv => hne (congrArg (fun v : Vector Byte 16 => v[(15 : Reg)]) hv)
  cases i with
  | addReg x y | subReg x y | subnReg x y | shrReg x y | shlReg x y | drw x y n => exact .inl ⟨x, y, by simp⟩
  | addIVx x =>
    cases hrule : s.params.fx1eVf with
    | overflowFFF => exact .inr (.inl ⟨x, rfl, rfl⟩)
    | unchanged =>
      cases (exec_addIVx_unchanged x hrule).symm.trans h
      exact absurd rfl hv
  | ldByte x kk | addByte x kk | rnd x kk =>
    cases h
    obtain rfl := eq_vF_of_reg_setReg_ne hne
    exact .inr (.inr (.inl ⟨kk, by simp⟩))
  | ldReg x y | orReg x y | andReg x y | xorReg x y =>
    cases h
    obtain rfl := eq_vF_of_reg_setReg_ne hne
    exact .inr (.inr (.inr (.inl ⟨y, by simp⟩)))
  | ldVxDT x =>
    cases h
    obtain rfl := eq_vF_of_reg_setReg_ne hne
    simp
  | ldVxK x =>
    obtain rfl | rfl := exec_ldVxK_cases h
    · obtain rfl := eq_vF_of_reg_setReg_ne hne
      simp
    · exact absurd rfl hv
  | loadRegs x =>
    obtain rfl | ⟨info, rfl⟩ := exec_loadRegs_cases h
    · obtain rfl := eq_vF_of_reg_loadFirst_ne (reg_updateI _ x 15 ▸ hne)
      simp
    · exact absurd rfl hv
  | storeRegs x =>
    obtain rfl | ⟨info, rfl⟩ := exec_storeRegs_cases h
    · exact absurd (State.updateI_v _ x) hv
    · exact absurd rfl hv
  | ldBVx =>
    obtain ⟨-, rfl⟩ | ⟨-, -, rfl⟩ := guardBounds_cases h
    · exact absurd rfl hv
    · exact absurd rfl hv
  | call =>
    obtain ⟨hsp, rfl⟩ | ⟨info, rfl⟩ := pushThen_cases h
    · exact absurd rfl hv
    · exact absurd rfl hv
  | ret =>
    obtain rfl | ⟨info, rfl⟩ := popThen_cases h
    · exact absurd rfl hv
    · exact absurd rfl hv
  | skp | sknp =>
    obtain ⟨c, rfl⟩ | ⟨info, rfl⟩ := skipOnKey_cases h
    · exact absurd (State.skipIf_v s c) hv
    · exact absurd rfl hv
  | seByte | sneByte | seReg | sneReg =>
    cases h
    exact absurd (State.skipIf_v s _) hv
  | cls | jp | jpV0 | ldI | ldFVx | ldDTVx | ldSTVx =>
    cases h
    exact absurd rfl hv

/-! ## The writers of every other piece of state (10_state.md R28 to R38; 20_memory.md R55) -/

/-- `UpdateI` changes `I` under the settings other than `UNCHANGED` only (decision D11, log 16). -/
theorem ldstI_ne_of_updateI_i_ne {s : State} {x : Reg} (h : (s.updateI x).i ≠ s.i) : s.params.ldstI ≠ .unchanged := by
  intro hrule
  rw [State.updateI_i, hrule] at h
  exact h rfl

/-- Settles O51: for each instruction, every piece of state it is not listed for is by its field's lemma the one before, and for
the two block instructions the change of `I` is that of `UpdateI`. -/
theorem onlyListedInstructionsWriteState : Obligations.OnlyListedInstructionsWriteState := by
  intro i s t h
  cases i with
  | ldByte | addByte | ldReg | orReg | andReg | xorReg | rnd | ldVxDT => cases h; simp
  | addReg | subReg | shrReg | subnReg | shlReg => cases h; simp
  | seByte | sneByte | seReg | sneReg | jp | jpV0 => cases h; simp
  | ldI | addIVx | ldFVx => cases h; simp
  | ldDTVx | ldSTVx => cases h; simp
  | cls => cases h; simp
  | drw =>
    obtain ⟨-, rfl⟩ | ⟨-, -, rfl⟩ := guardBounds_cases h
    · simp [State.drawn]
    · simp
  | call =>
    obtain ⟨hsp, rfl⟩ | ⟨info, rfl⟩ := pushThen_cases h
    · simp
    · simp
  | ret =>
    obtain rfl | ⟨info, rfl⟩ := popThen_cases h
    · simp
    · simp
  | skp | sknp =>
    obtain ⟨c, rfl⟩ | ⟨info, rfl⟩ := skipOnKey_cases h
    · simp
    · simp
  | ldVxK x =>
    obtain rfl | rfl := exec_ldVxK_cases h
    · simp
    · simp
  | ldBVx =>
    obtain ⟨-, rfl⟩ | ⟨-, -, rfl⟩ := guardBounds_cases h
    · simp
    · simp
  | storeRegs x =>
    obtain rfl | ⟨info, rfl⟩ := exec_storeRegs_cases h
    · simpa using ldstI_ne_of_updateI_i_ne (s := s.storeBytes (s.regsUpTo x)) (x := x)
    · simp
  | loadRegs x =>
    obtain rfl | ⟨info, rfl⟩ := exec_loadRegs_cases h
    · simpa using ldstI_ne_of_updateI_i_ne (s := s.loadFirst (x.val + 1)) (x := x)
    · simp

/-! ## Memory and the parameters after the load (70_reset_and_hazards.md R243) -/

/-- No instruction writes the parameters (log 6). -/
theorem Effect.params_eq {s t : State} (he : Effect s t) : t.params = s.params := by
  cases he with
  | raised _ h => rw [h, State.raise_params]
  | call _ h _ => rw [h, State.pushed_params]
  | ret _ h => rw [h, State.popped_params]
  | regs h | skip h _ | jump h _ | store _ _ h | draw h | timer h | keyDone h | keyWait h => rw [h]

/-- A load writes none but memory, `pc`, `STATUS` and `ERR`. -/
theorem loadImage_params_eq {s t : State} {image : List Byte} (h : loadImage image s = .next t) : t.params = s.params := by
  obtain ⟨-, ⟨-, -, rfl⟩ | ⟨reason, -, rfl⟩⟩ := loadImage_cases h
  · rfl
  · rfl

/-- No step writes the parameters: to have those of `s` is kept by every step (log 6). -/
theorem step_params_eq {s t : State} (h : step s = .next t) : t.params = s.params :=
  step_invariant (P := fun u => u.params = s.params) (fun _ _ _ _ _ hs => hs) (fun _ _ hs => hs)
    (fun _ _ _ hs _ _ hexec => (exec_effect hexec).params_eq.trans hs) (fun _ _ _ hs hload => (loadImage_params_eq hload).trans hs)
    (fun _ hs => hs) rfl h

/-- A cycle that changed memory fetched in range, and executed `FX33` or `FX55`. -/
theorem fetchDecodeExecute_mem_ne {s t : State} (h : fetchDecodeExecute s = .next t) (hmem : t.mem ≠ s.mem) :
    s.pc.toNat + 1 < 4096 ∧ ((∃ x, decode (wordAt s s.pc.toNat) = .ok (.ldBVx x)) ∨
      ∃ x, decode (wordAt s s.pc.toNat) = .ok (.storeRegs x)) := by
  obtain ⟨-, rfl⟩ | ⟨w, r, -, -, rfl⟩ | ⟨w, i, hpc, hw, hi, hexec⟩ := fetchDecodeExecute_cases h
  · exact absurd rfl hmem
  · exact absurd rfl hmem
  · rw [fetchAt_ok hpc, composeWord_read] at hw
    cases hw
    obtain ⟨hwriter, -⟩ := onlyListedInstructionsWriteState i s.advanced t hexec
    refine ⟨hpc, ?_⟩
    obtain ⟨x, rfl⟩ | ⟨x, rfl⟩ := hwriter hmem
    · exact .inl ⟨x, hi⟩
    · exact .inr ⟨x, hi⟩

/-- Settles O52: outside `UNLOADED` there is no load, a timer step and a key change leave memory as it was, and a cycle writes it
through its instruction. -/
theorem hostNeverWritesMemoryAfterLoad : Obligations.HostNeverWritesMemoryAfterLoad := by
  intro s t h
  refine ⟨step_params_eq h, fun hs hmem => ?_⟩
  obtain hcycle | ⟨image, rest, hq⟩ | ⟨rest, hq⟩ | ⟨k, rest, hq⟩ := pending_cases s
  · have hrun := running_of_next hcycle h
    obtain ⟨u, ⟨⟨k, r, d, q, rfl⟩, -⟩, hstep⟩ := step_running hrun
    have hwrites := fetchDecodeExecute_mem_ne (hstep.symm.trans h) hmem
    exact ⟨hrun, hwrites⟩
  · rw [step_move hq] at h
    exact absurd (loadImage_cases h).1 hs
  · cases (step_move hq).symm.trans h
    exact absurd rfl hmem
  · cases (step_move hq).symm.trans h
    exact absurd rfl hmem

end Sys2Proof.Machine
end
